-- ==== Sys2Proof/Config.lean ====
section
/-! DEFINITION. Every named parameter of the hardware, once, under the spec's name (00_scope.md R7), and the one
parameter the spec leaves OPEN. The literals are the spec's (log entry 24); the relations of R8 are theorems in Laws/Bytes.lean. -/

namespace Sys2Proof.Config

/-- `HEADER_BYTES`: size of the header in bytes. -/
@[simp] abbrev headerBytes : Nat := 8
/-- `HEADER_BITS`: width of the header word. -/
@[simp] abbrev headerBits : Nat := 64
/-- `FLAG_LO`: lowest bit of the fragmentation flag. -/
@[simp] abbrev flagLo : Nat := 0
/-- `FLAG_W`: width of the fragmentation flag. -/
@[simp] abbrev flagW : Nat := 4
/-- `LEN_LO`: lowest bit of total_length. -/
@[simp] abbrev lenLo : Nat := 4
/-- `LEN_W`: width of total_length; bit 48 belongs to it (conflict C1, log entry 7). -/
@[simp] abbrev lenW : Nat := 45
/-- `RSVD_LO`: lowest reserved header bit. -/
@[simp] abbrev rsvdLo : Nat := 49
/-- `RSVD_W`: number of reserved header bits. -/
@[simp] abbrev rsvdW : Nat := 15
/-- `PTYPE_BYTES`. -/
@[simp] abbrev ptypeBytes : Nat := 1
/-- `CMD_BYTES` (conflict C4, log entry 11). -/
@[simp] abbrev cmdBytes : Nat := 1
/-- `META_BYTES` = `PTYPE_BYTES + CMD_BYTES`. -/
@[simp] abbrev metaBytes : Nat := ptypeBytes + cmdBytes
/-- `MIN_FRAME` = `HEADER_BYTES + META_BYTES`, the shortest frame DECODE accepts. -/
@[simp] abbrev minFrame : Nat := headerBytes + metaBytes
/-- `MIN_TOTAL_LEN`: lowest total_length the reassembler takes for a header. -/
@[simp] abbrev minTotalLen : Nat := 8
/-- `MAX_TOTAL_LEN`: highest total_length the reassembler takes and ENCODE produces. -/
@[simp] abbrev maxTotalLen : Nat := 1024
/-- `MAX_PAYLOAD` = `MAX_TOTAL_LEN - MIN_FRAME`. -/
@[simp] abbrev maxPayload : Nat := maxTotalLen - minFrame
/-- `UNFRAGED`: the flag of a complete packet. -/
@[simp] abbrev unfraged : BitVec flagW := 0
/-- `PTYPE_NONE` (decision D3, log entry 9). -/
@[simp] abbrev ptypeNone : BitVec 8 := 0
/-- `PTYPE_STRING` (decision D3, log entry 9). -/
@[simp] abbrev ptypeString : BitVec 8 := 1
/-- `PTYPE_STRICT`: DECODE rejects a payload_type byte outside the two (decision D4, log entry 10). -/
@[simp] abbrev ptypeStrict : Bool := true
/-- `ACC_CAP`: capacity of the accumulator in bytes (decision D15, log entry 18). -/
@[simp] abbrev accCap : Nat := 1024
/-- `ENC_LEN_W`: width of the encoder's length input (decision D21). -/
@[simp] abbrev encLenW : Nat := 16
/-- Width of every port and register that holds a length up to `MAX_TOTAL_LEN` (00_scope.md R8 "needs only 11 bits";
10_state.md R22, R28, R33, R34, R36). -/
@[simp] abbrev portLenW : Nat := 11

/-- The OPEN part of `K_MAX` (decision D23, log entry 20): no value is known. -/
opaque kMaxBelow : Nat

/-- `K_MAX`: most bytes one transport read returns, a natural of at least 1 (00_scope.md R7). -/
def kMax : Nat := kMaxBelow + 1

end Sys2Proof.Config
end

