-- ==== Sys2Proof/Word.lean ====
section
/-! DEFINITION. The two word types of the hardware: the byte (00_scope.md section 6) and the header word
(20_memory.md R51, "The only multi-byte quantity of the hardware"). -/

namespace Sys2Proof

/-- A byte: 8 bits, unsigned (00_scope.md section 6). -/
abbrev Byte := BitVec 8

/-- The header word, `HEADER_BITS` wide (30_encoding.md R81). -/
abbrev HeaderWord := BitVec Config.headerBits

end Sys2Proof
end

