-- ==== Sys2Proof/Syntax.lean ====
section
/-! DEFINITION. The operations and wire patterns of spec/opcode_table.json (`Instr`, one constructor for each row) and
the transactions that the environment presents at the ports (10_state.md R33 to R35). -/

namespace Sys2Proof

/-- One constructor for each row of spec/opcode_table.json: the five operations of 30_encoding.md R100 with the
operands of R103, and the four wire patterns of R104. -/
inductive Instr where
  /-- ENCODE payload, flag, ptype, cmd (40_encoder.md R120). -/
  | encode (payload : List Byte) (flag ptype cmd : Byte)
  /-- DECODE frame (41_decoder.md R140). -/
  | decode (frame : List Byte)
  /-- RS.PUSH byte (42_reassembler.md R160). -/
  | rsPush (b : Byte)
  /-- RS.FEED chunk (42_reassembler.md R171). -/
  | rsFeed (chunk : List Byte)
  /-- RS.CLEAR (42_reassembler.md R173). -/
  | rsClear
  /-- HDR: any header word, most significant field first (30_encoding.md R81). -/
  | hdr (rsvd : BitVec Config.rsvdW) (len : BitVec Config.lenW) (flag : BitVec Config.flagW)
  /-- HDR.TX: a header word as ENCODE writes it, bits 63:15 zero (30_encoding.md R87). -/
  | hdrTx (len : BitVec Config.portLenW) (flag : BitVec Config.flagW)
  /-- FRAME.NONE: a frame whose byte 8 is 00; its total_length is 10 + the payload's length (30_encoding.md R101). -/
  | frameNone (rsvd : BitVec Config.rsvdW) (flag : BitVec Config.flagW) (cmd : Byte) (payload : List Byte)
  /-- FRAME.STRING: a frame whose byte 8 is 01 (30_encoding.md R101). -/
  | frameString (rsvd : BitVec Config.rsvdW) (flag : BitVec Config.flagW) (cmd : Byte) (payload : List Byte)
  deriving DecidableEq, Repr

/-- The sub-block whose port an operation drives (30_encoding.md R100, column "sub-block"). -/
inductive Port where
  | enc | dec | rsm
  deriving DecidableEq, Repr

/-- What the environment drives in one transaction (10_state.md R33 to R35; log entry 1). -/
inductive Transaction where
  /-- The ENC port: `enc_payload`, `enc_flag`, `enc_ptype`, `enc_cmd` (R33). `enc_len` is no choice of the driver: it is
  "the number of bytes of `enc_payload`" (`encLen`). -/
  | enc (payload : List Byte) (flag ptype cmd : Byte)
  /-- The DEC port: `dec_frame` (R34). `dec_len` is "the number of bytes of `dec_frame`" (`decLen`). -/
  | dec (frame : List Byte)
  /-- The RSM inputs `reset`, `rs_clear`, `rs_in_valid`, `rs_in_byte` (R35). -/
  | rsm (reset clear inValid : Bool) (inByte : Byte)
  /-- One transport read that returned `chunk` (20_memory.md R60), consumed as RS.FEED. -/
  | read (chunk : List Byte)
  /-- Bytes arriving on the inbound stream that are named by their wire pattern where they have one (log entry 4). -/
  | wire (bytes : List Byte)
  deriving DecidableEq, Repr

/-- Why a transaction is none that the ports admit (log entry 21). -/
inductive Reject where
  /-- The payload's length is not representable on `enc_len` (40_encoder.md R120): "Not presentable at the ports
  (`refuse` at the model's boundary ...)" (93_implementation_defined.md U13). -/
  | encLenAboveMax
  /-- The frame is longer than `dec_len` admits, 0..1024 (10_state.md R34): "At the port: not presentable"
  (93_implementation_defined.md U12). -/
  | decLenAboveMax
  deriving DecidableEq, Repr

/-- What one transaction selects: an operation, the `reset` input, nothing, or a rejection by name. -/
inductive Selected where
  | op (i : Instr)
  | reset
  | idle
  | rejected (why : Reject)
  deriving DecidableEq, Repr

/-- The port a transaction drives. -/
def Transaction.port : Transaction → Port
  | .enc .. => .enc
  | .dec .. => .dec
  | .rsm .. => .rsm
  | .read _ => .rsm
  | .wire _ => .rsm

/-- The sub-block of each row (30_encoding.md R100; the wire patterns arrive at RSM, log entry 4). -/
def Instr.port : Instr → Port
  | .encode .. => .enc
  | .decode _ => .dec
  | .rsPush _ => .rsm
  | .rsFeed _ => .rsm
  | .rsClear => .rsm
  | .hdr .. => .rsm
  | .hdrTx .. => .rsm
  | .frameNone .. => .rsm
  | .frameString .. => .rsm

end Sys2Proof
end

