-- ==== Sys2Proof/Machine/State.lean ====
section
/-! DEFINITION. The architectural state of the framer (10_state.md R20 to R23), the outputs of a transaction (R32 to R37),
the environment's queue and records, the reset state (R31), and why a step can stop. -/

namespace Sys2Proof.Machine

/-- `rs_state`, 1 bit (10_state.md R21). -/
inductive RsState where
  | seekingHeader
  | readingBody
  deriving DecidableEq, Repr

/-- The four error kinds (60_exceptions.md R200). -/
inductive ErrKind where
  | payloadTooLarge
  | frameTooShort
  | invalidLength
  | malformedFrame
  deriving DecidableEq, Repr

/-- Who an error is surfaced to: the caller of ENCODE or of a direct DECODE (60_exceptions.md R209, R210). -/
inductive Caller where
  | encode
  | decode
  deriving DecidableEq, Repr

/-- The events of RS.PUSH (10_state.md R37). -/
inductive RsEvent where
  | none
  | resync
  | header
  | packet
  | drop
  deriving DecidableEq, Repr

/-- The decoded payload_type (10_state.md R32). -/
inductive PayloadType where
  | none
  | string
  deriving DecidableEq, Repr

/-- ParsedPacket (10_state.md R32). -/
structure ParsedPacket where
  userField : Byte
  payload : List Byte
  payloadType : PayloadType
  deriving DecidableEq, Repr

/-- A packet with the auxiliary flag output beside it (`dec_flag`, `rs_pkt_flag`; 10_state.md R34, R36). -/
structure Delivery where
  packet : ParsedPacket
  flag : BitVec Config.flagW
  deriving DecidableEq, Repr

/-- The outcome of one ENCODE: a frame or an error, never both (10_state.md R33). -/
inductive EncResult where
  | frame (bytes : List Byte)
  | error (e : ErrKind)
  deriving DecidableEq, Repr

/-- The outcome of one DECODE: a packet or an error, never both (10_state.md R34; log entry 29). -/
inductive DecResult where
  | packet (d : Delivery)
  | error (e : ErrKind)
  deriving DecidableEq, Repr

/-- The outputs of one RS.PUSH: `rs_ev`, `rs_err`, and the packet when `rs_pkt_valid` (10_state.md R36, R37).
`err = none` is `ERR_OK`, `pkt = none` is `rs_pkt_valid = 0`. -/
structure RsOut where
  ev : RsEvent
  err : Option ErrKind
  pkt : Option Delivery
  deriving DecidableEq, Repr

/-- The idle RSM output: `EV_NONE`, `ERR_OK`, no packet (10_state.md R31). -/
def RsOut.idle : RsOut := { ev := .none, err := none, pkt := none }

/-- The registers of the reassembler (10_state.md R20): `acc_count` is the length of `acc`. -/
structure Rsm where
  rsState : RsState
  rsExpected : BitVec Config.portLenW
  acc : List Byte
  deriving DecidableEq, Repr

/-- The reassembler after reset (10_state.md R31). -/
def Rsm.reset : Rsm := { rsState := .seekingHeader, rsExpected := 0, acc := [] }

/-- The outputs of the last transaction (log entry 2): `none` and `[]` are ports it did not drive; RSM gives one entry
for each RS.PUSH in it. -/
structure Outputs where
  enc : Option EncResult
  dec : Option DecResult
  rs : List RsOut
  deriving DecidableEq, Repr

/-- No port driven. -/
def Outputs.idle : Outputs := { enc := none, dec := none, rs := [] }

/-- The machine: the reassembler's registers (the whole state of the hardware, 10_state.md R20), the outputs of the last
transaction, and the environment: transactions to come, bytes handed to the transport, packets handed to the consumer
(log entries 1 to 3). -/
structure State where
  rsm : Rsm
  out : Outputs
  inputs : List Transaction
  outbound : List Byte
  delivered : List Delivery
  deriving DecidableEq, Repr

/-- After reset (10_state.md R31): registers and outputs as the spec says; no transaction waits (log entry 28). -/
def State.reset : State :=
  { rsm := Rsm.reset, out := Outputs.idle, inputs := [], outbound := [], delivered := [] }

/-- Nothing faults this machine: "the operation ends with an error" is a result the machine goes on after
(60_exceptions.md R200 "None is fatal"; log entry 26). No constructor, so no meaning can raise one: safe. -/
inductive Fault where
  deriving DecidableEq, Repr

/-- Why a step has no meaning. -/
inductive Refusal where
  /-- An instruction without a meaning; raised by no arm of this model. Safe. -/
  | notModelled (mnemonic : String)
  /-- Raised by the step, and by no instruction, for an ENC or DEC transaction longer than its length input carries
  (log entry 21). Safe: the machine stops where the spec says the input is "not presentable" and the model is to
  "refuse" it at its boundary (93_implementation_defined.md U12, U13). -/
  | notPresentable (why : Reject)
  deriving DecidableEq, Repr

end Sys2Proof.Machine
end

