-- ==== Sys2Proof/Machine/Flags.lean ====
section
/-! DEFINITION. The hardware has no flags (10_state.md R27); what it has are codes on its output ports and read-only
status outputs. This file gives every code (R21, R37, R38) and every port as a view of State (R28, R33 to R37). -/

namespace Sys2Proof.Machine

/-- `SeekingHeader` = 0, `ReadingBody` = 1 (10_state.md R21). -/
def RsState.code : RsState → BitVec 1
  | .seekingHeader => 0
  | .readingBody => 1

/-- The codes of `rs_ev` (10_state.md R37). -/
def RsEvent.code : RsEvent → BitVec 3
  | .none => 0
  | .resync => 1
  | .header => 2
  | .packet => 3
  | .drop => 4

/-- The codes of the error kinds (10_state.md R38). -/
def ErrKind.code : ErrKind → BitVec 3
  | .payloadTooLarge => 1
  | .frameTooShort => 2
  | .invalidLength => 3
  | .malformedFrame => 4

/-- The code on an error output: `ERR_OK` = 0 where there is no error (10_state.md R38). -/
def errCode : Option ErrKind → BitVec 3
  | none => 0
  | some e => e.code

/-- The error of an ENCODE, if any. -/
def EncResult.err : EncResult → Option ErrKind
  | .frame _ => none
  | .error e => some e

/-- `enc_frame`: the frame's bytes, none on an error (10_state.md R33). -/
def EncResult.bytes : EncResult → List Byte
  | .frame bytes => bytes
  | .error _ => []

/-- The error of a DECODE, if any. -/
def DecResult.err : DecResult → Option ErrKind
  | .packet _ => none
  | .error e => some e

/-- The packet of a DECODE, if any. -/
def DecResult.delivery : DecResult → Option Delivery
  | .packet d => some d
  | .error _ => none

/-- The last RSM output of the transaction; idle where RSM was not pushed. -/
def Outputs.lastRs (o : Outputs) : RsOut := o.rs.getLast?.getD RsOut.idle

/-! ## Output ports; a port that was not driven shows nothing -/

/-- `enc_err`. -/
def State.encErr (s : State) : Option (BitVec 3) := s.out.enc.map fun r => errCode r.err
/-- `enc_frame_len`, 0 on an error. -/
def State.encFrameLen (s : State) : Option (BitVec Config.portLenW) := s.out.enc.map fun r => BitVec.ofNat Config.portLenW r.bytes.length
/-- `enc_frame`. -/
def State.encFrame (s : State) : Option (List Byte) := s.out.enc.map EncResult.bytes
/-- `dec_err`. -/
def State.decErr (s : State) : Option (BitVec 3) := s.out.dec.map fun r => errCode r.err
/-- `dec_pkt`, present only when `dec_err = ERR_OK`. -/
def State.decPkt (s : State) : Option ParsedPacket := (s.out.dec.bind DecResult.delivery).map Delivery.packet
/-- `dec_payload_len`, present only when `dec_err = ERR_OK`. -/
def State.decPayloadLen (s : State) : Option (BitVec Config.portLenW) :=
  s.decPkt.map fun p => BitVec.ofNat Config.portLenW p.payload.length
/-- `dec_flag`, present only when `dec_err = ERR_OK`. -/
def State.decFlag (s : State) : Option (BitVec Config.flagW) := (s.out.dec.bind DecResult.delivery).map Delivery.flag
/-- `rs_ev`. -/
def State.rsEv (s : State) : BitVec 3 := s.out.lastRs.ev.code
/-- `rs_err`. -/
def State.rsErr (s : State) : BitVec 3 := errCode s.out.lastRs.err
/-- `rs_pkt_valid`. -/
def State.rsPktValid (s : State) : Bool := s.out.lastRs.pkt.isSome
/-- `rs_pkt`, present only when `rs_pkt_valid`. -/
def State.rsPkt (s : State) : Option ParsedPacket := s.out.lastRs.pkt.map Delivery.packet
/-- `rs_pkt_payload_len`, present only when `rs_pkt_valid`. -/
def State.rsPktPayloadLen (s : State) : Option (BitVec Config.portLenW) :=
  s.rsPkt.map fun p => BitVec.ofNat Config.portLenW p.payload.length
/-- `rs_pkt_flag`, present only when `rs_pkt_valid`. -/
def State.rsPktFlag (s : State) : Option (BitVec Config.flagW) := s.out.lastRs.pkt.map Delivery.flag

/-! ## Status outputs (10_state.md R28) -/

/-- `st_state`. -/
def State.stState (s : State) : BitVec 1 := s.rsm.rsState.code
/-- `st_expected`. -/
def State.stExpected (s : State) : BitVec Config.portLenW := s.rsm.rsExpected
/-- `st_count`. -/
def State.stCount (s : State) : BitVec Config.portLenW := BitVec.ofNat Config.portLenW s.rsm.acc.length

/-! ## Streams -/

/-- The bytes a transaction brings to the reassembler's input, whether or not they are taken. -/
def inboundBytes : Transaction → List Byte
  | .enc .. => []
  | .dec .. => []
  | .rsm _ _ inValid inByte => if inValid then [inByte] else []
  | .read chunk => chunk
  | .wire bytes => bytes

/-- The inbound stream still to come (20_memory.md R50). -/
def State.inbound (s : State) : List Byte := s.inputs.flatMap inboundBytes

/-- The packets among the outputs of a sequence of pushes, in order (10_state.md R36). -/
def packetsOf (outs : List RsOut) : List Delivery := outs.filterMap RsOut.pkt

end Sys2Proof.Machine
end

