-- ==== Sys2Proof/WellFormed.lean ====
section
/-! DEFINITION. Which instructions the ports and the wire format can carry: the operand ranges of 10_state.md R33, R34 and
30_encoding.md R87, R101. The meanings of the machine are total and do not ask for this check (log entry 22). -/

namespace Sys2Proof

/-- A total_length that ENCODE produces: `MIN_FRAME` to `MAX_TOTAL_LEN` (30_encoding.md R83, "values 10..1024"). -/
def txLen (n : Nat) : Bool := decide (Config.minFrame ≤ n ∧ n ≤ Config.maxTotalLen)

/-- The operand checks, one for each row that has any:
ENCODE's length fits `enc_len`; DECODE's frame fits the DEC port; HDR.TX's length is one ENCODE produces; HDR names the
header words that are not HDR.TX words (log entry 6); a frame is at most `MAX_TOTAL_LEN` long. -/
def Instr.wellFormed : Instr → Bool
  | .encode payload _ _ _ => decide (payload.length < 2 ^ Config.encLenW)
  | .decode frame => decide (frame.length ≤ Config.maxTotalLen)
  | .rsPush _ => true
  | .rsFeed _ => true
  | .rsClear => true
  | .hdr rsvd len _ => !(decide (rsvd = 0) && txLen len.toNat)
  | .hdrTx len _ => txLen len.toNat
  | .frameNone _ _ _ payload => decide (payload.length ≤ Config.maxPayload)
  | .frameString _ _ _ payload => decide (payload.length ≤ Config.maxPayload)

end Sys2Proof
end

