-- ==== Sys2Proof/Decode.lean ====
section
/-! DEFINITION. The wire format's byte order and header fields (20_memory.md R51, 30_encoding.md R81, R90 to R94), the
decoder from a transaction to what it selects (10_state.md R33 to R35), and after it the encoder. -/

namespace Sys2Proof

/-! ## Byte order (20_memory.md R51, 00_scope.md section 6) -/

/-- The little-endian number of a byte sequence: the sum of `b[i] * 2^(8*i)`. -/
def leNat : List Byte → Nat
  | [] => 0
  | b :: bs => b.toNat + 256 * leNat bs

/-- The `n` low bytes of a number, least significant first. -/
def bytesLE : Nat → Nat → List Byte
  | 0, _ => []
  | n + 1, w => BitVec.ofNat 8 w :: bytesLE n (w / 256)

/-- `le64` of an 8-byte sequence. -/
def le64 (h : List Byte) : HeaderWord := BitVec.ofNat Config.headerBits (leNat h)

/-- `bytes_le64`, the inverse of `le64`. -/
def bytesLe64 (w : HeaderWord) : List Byte := bytesLE Config.headerBytes w.toNat

/-! ## The header word (30_encoding.md R81, R90 to R92, R94) -/

/-- `HdrFlag(w) = w[3:0]`. -/
def hdrFlag (w : HeaderWord) : BitVec Config.flagW := w.extractLsb' Config.flagLo Config.flagW

/-- `HdrLen(w) = w[48:4]`. -/
def hdrLen (w : HeaderWord) : BitVec Config.lenW := w.extractLsb' Config.lenLo Config.lenW

/-- `HdrRsvd(w) = w[63:49]`. -/
def hdrRsvd (w : HeaderWord) : BitVec Config.rsvdW := w.extractLsb' Config.rsvdLo Config.rsvdW

/-- The header word with the three given fields (30_encoding.md R81). -/
def hdrWord (rsvd : BitVec Config.rsvdW) (len : BitVec Config.lenW) (flag : BitVec Config.flagW) : HeaderWord :=
  rsvd ++ len ++ flag

/-- `HdrPack(tl, f)`: the 8 bytes of `(tl << 4) | (f & 0xF)` (30_encoding.md R90), 4 being `LEN_LO` and 0xF the mask of
`FLAG_W` bits. -/
def hdrPack (tl : Nat) (f : Byte) : List Byte :=
  bytesLe64 (BitVec.ofNat Config.headerBits ((tl <<< Config.lenLo) ||| (f.toNat &&& (2 ^ Config.flagW - 1))))

/-- `LenValid(tl)`: `8 <= tl <= 1024` (30_encoding.md R92). -/
def lenValid (tl : Nat) : Bool := decide (Config.minTotalLen ≤ tl ∧ tl ≤ Config.maxTotalLen)

/-- total_length of a byte sequence of at least 8 bytes (30_encoding.md R95). -/
def frameLen (frame : List Byte) : Nat := (hdrLen (le64 (frame.take Config.headerBytes))).toNat

/-! ## Frames (30_encoding.md R80, R101) -/

/-- The bytes of a frame: header, payload_type, command_id, payload (30_encoding.md R80). -/
def frameBytes (rsvd : BitVec Config.rsvdW) (flag : BitVec Config.flagW) (ptype cmd : Byte) (payload : List Byte) : List Byte :=
  bytesLe64 (hdrWord rsvd (BitVec.ofNat Config.lenW (Config.minFrame + payload.length)) flag) ++ ptype :: cmd :: payload

/-- The wire pattern of 8 bytes: HDR.TX for a word that ENCODE can write, else HDR (log entry 6). -/
def wireHeader (h : List Byte) : Instr :=
  let w := le64 h
  if hdrRsvd w = 0 ∧ txLen (hdrLen w).toNat = true then
    .hdrTx ((hdrLen w).setWidth Config.portLenW) (hdrFlag w)
  else
    .hdr (hdrRsvd w) (hdrLen w) (hdrFlag w)

/-- The class of a frame by its byte 8, given that the length condition holds (30_encoding.md R101); `none` for a reserved
payload_type. -/
def wireClass (w : HeaderWord) (ptype cmd : Byte) (payload : List Byte) : Option Instr :=
  if ptype = Config.ptypeNone then some (.frameNone (hdrRsvd w) (hdrFlag w) cmd payload)
  else if ptype = Config.ptypeString then some (.frameString (hdrRsvd w) (hdrFlag w) cmd payload)
  else none

/-- The frame pattern of bytes whose total_length is their number, at most 1024; `none` for noise, torn and corrupted
frames. -/
def wireFrame (bytes : List Byte) : Option Instr :=
  match bytes.drop Config.headerBytes with
  | ptype :: cmd :: payload =>
    if frameLen bytes = bytes.length ∧ bytes.length ≤ Config.maxTotalLen then
      wireClass (le64 (bytes.take Config.headerBytes)) ptype cmd payload
    else none
  | _ => none

/-! ## What a transaction selects (10_state.md R33 to R35) -/

/-- `enc_len`: "the number of bytes of `enc_payload`" on 16 bits (10_state.md R33). -/
def encLen (payload : List Byte) : BitVec Config.encLenW := BitVec.ofNat Config.encLenW payload.length

/-- `dec_len`: "the number of bytes of `dec_frame`" on 11 bits (10_state.md R34). -/
def decLen (frame : List Byte) : BitVec Config.portLenW := BitVec.ofNat Config.portLenW frame.length

/-- The ENC port: any payload whose length is representable on `enc_len` (40_encoder.md R120). -/
def selectEnc (payload : List Byte) (flag ptype cmd : Byte) : Selected :=
  if (encLen payload).toNat = payload.length then .op (.encode payload flag ptype cmd) else .rejected .encLenAboveMax

/-- The DEC port: `dec_len` carries the length, 0..1024 (10_state.md R34). -/
def selectDec (frame : List Byte) : Selected :=
  if (decLen frame).toNat = frame.length ∧ frame.length ≤ Config.maxTotalLen then .op (.decode frame)
  else .rejected .decLenAboveMax

/-- The RSM inputs: `reset` over `rs_clear` over `rs_in_valid`, and idle when none is driven (10_state.md R35). -/
def selectRsm (reset clear inValid : Bool) (inByte : Byte) : Selected :=
  if reset then .reset
  else if clear then .op .rsClear
  else if inValid then .op (.rsPush inByte)
  else .idle

/-- Bytes on the inbound stream named by their wire pattern: 8 bytes are a header word, more may be a frame; bytes of no
pattern (noise, a torn or corrupted frame) arrive all the same (20_memory.md R60 "all admitted"), as RS.FEED of them. -/
def selectWire (bytes : List Byte) : Instr :=
  if bytes.length = Config.headerBytes then wireHeader bytes else (wireFrame bytes).getD (.rsFeed bytes)

/-- The decoder: what one transaction selects. Total, rejecting by name. -/
def decode : Transaction → Selected
  | .enc payload flag ptype cmd => selectEnc payload flag ptype cmd
  | .dec frame => selectDec frame
  | .rsm reset clear inValid inByte => selectRsm reset clear inValid inByte
  | .read chunk => .op (.rsFeed chunk)
  | .wire bytes => .op (selectWire bytes)

/-! ## The encoder, from the same tables -/

/-- The transaction that presents an instruction. -/
def encode : Instr → Transaction
  | .encode payload flag ptype cmd => .enc payload flag ptype cmd
  | .decode frame => .dec frame
  | .rsPush b => .rsm false false true b
  | .rsFeed chunk => .read chunk
  | .rsClear => .rsm false true false 0
  | .hdr rsvd len flag => .wire (bytesLe64 (hdrWord rsvd len flag))
  | .hdrTx len flag => .wire (bytesLe64 (hdrWord 0 (len.setWidth Config.lenW) flag))
  | .frameNone rsvd flag cmd payload => .wire (frameBytes rsvd flag Config.ptypeNone cmd payload)
  | .frameString rsvd flag cmd payload => .wire (frameBytes rsvd flag Config.ptypeString cmd payload)

/-! ## Words of the opcode table (log entry 5) -/

/-- The bytes of a frame whose first 10 bytes are the table's 80-bit number and whose payload bytes are all zero, as
many as its total_length announces and the hardware's longest frame allows. -/
def tableFrame (w : Nat) : List Byte :=
  let p := bytesLE Config.minFrame w
  p ++ List.replicate (min (frameLen p - Config.minFrame) Config.maxPayload) 0

/-- The transaction that carries a word of the opcode table. The table gives the operations no bits, so a word
of no bits stands for the one operation without operand data, RS.CLEAR, and a word of 8 bits for one byte on `rs_in_byte`;
64 and 80 bits are the header and frame patterns. -/
def tableTransaction (nbits w : Nat) : Transaction :=
  if nbits = 0 then .rsm false true false 0
  else if nbits = 8 then .rsm false false true (BitVec.ofNat 8 w)
  else if nbits = 80 then .wire (tableFrame w)
  else .wire (bytesLE (nbits / 8) w)

/-- The instruction the decoder reads from a word numbered as spec/opcode_table.json numbers it. -/
def decodeTableWord (nbits w : Nat) : Option Instr :=
  match decode (tableTransaction nbits w) with
  | .op i => some i
  | .reset => none
  | .idle => none
  | .rejected _ => none

end Sys2Proof
end

