-- ==== Sys2Proof/Machine/Operands.lean ====
section
/-! DEFINITION. How every operand of a frame is assembled (30_encoding.md R95), from a frame of enough bytes. -/

namespace Sys2Proof.Machine

/-- The header word of a frame of at least 8 bytes. -/
def frameWord (frame : List Byte) : HeaderWord := le64 (frame.take Config.headerBytes)

/-- `fragmentation_flag`: header bits 3:0 (30_encoding.md R91, R95). -/
def frameFlag (frame : List Byte) : BitVec Config.flagW := hdrFlag (frameWord frame)

/-- Frame byte 8 (30_encoding.md R84). Read only when at least 10 bytes are known to be there. -/
def framePtypeByte (frame : List Byte) : Byte := frame.getD Config.headerBytes 0

/-- `user_field`: frame byte 9, unsigned (30_encoding.md R85). -/
def frameUserField (frame : List Byte) : Byte := frame.getD (Config.headerBytes + Config.ptypeBytes) 0

/-- `payload`: frame bytes 10 to the end (30_encoding.md R89). -/
def framePayload (frame : List Byte) : List Byte := frame.drop Config.minFrame

/-- The name of a payload_type byte (41_decoder.md R147: "NONE if t = 0 else STRING"). -/
def payloadTypeOf (t : Byte) : PayloadType := if t = Config.ptypeNone then .none else .string

/-- The byte of a payload type (30_encoding.md R84). -/
def PayloadType.byte : PayloadType → Byte
  | .none => Config.ptypeNone
  | .string => Config.ptypeString

end Sys2Proof.Machine
end

