-- ==== Sys2Proof/Machine/Ops.lean ====
section
/-! DEFINITION. The named operations shared by the meanings: the accumulator's three accesses (00_scope.md section 7), the
frame codec's two functions (40_encoder.md R123, 41_decoder.md R147), what an error does (60_exceptions.md R209 to R211), the
reassembler's loop (42_reassembler.md R167), and how a result reaches the ports. -/

namespace Sys2Proof.Machine

/-! ## The accumulator (00_scope.md section 7, 20_memory.md R54): the hardware's only memory -/

/-- The form of the accumulator's contents: at most `ACC_CAP` bytes (10_state.md R23, log entry 18). -/
abbrev Memory.wf (acc : List Byte) : Prop := acc.length ≤ Config.accCap

/-- `acc_count`. -/
def accCount (r : Rsm) : Nat := r.acc.length

/-- `AccAppend(b)`: after the newest byte. -/
def accAppend (b : Byte) (r : Rsm) : Rsm := { r with acc := r.acc ++ [b] }

/-- `AccRead(addr, n)`: the bytes `acc[addr .. addr+n-1]`; every use stands behind the test that
`addr + n <= acc_count`. -/
def accRead (addr n : Nat) (r : Rsm) : List Byte := (r.acc.drop addr).take n

/-- `AccDrop(n)`: the `n` oldest bytes are gone, the others' offsets fall by `n`. -/
def accDrop (n : Nat) (r : Rsm) : Rsm := { r with acc := r.acc.drop n }

/-! ## The frame codec: pure functions -/

/-- ENCODE (40_encoder.md R123): the length check decides alone, on unbounded naturals (30_encoding.md R96). -/
def encodeFrame (payload : List Byte) (flag ptype cmd : Byte) : EncResult :=
  let tl := Config.headerBytes + Config.metaBytes + payload.length
  if Config.maxTotalLen < tl then .error .payloadTooLarge
  else .frame (hdrPack tl flag ++ [ptype] ++ [cmd] ++ payload)

/-- The packet of a frame that passed every check (41_decoder.md R146). -/
def packetOfFrame (frame : List Byte) : Delivery :=
  { packet :=
      { userField := frameUserField frame
        payload := framePayload frame
        payloadType := payloadTypeOf (framePtypeByte frame) }
    flag := frameFlag frame }

/-- DECODE (41_decoder.md R147), the checks in the order of R207; no upper bound on the length (R148). -/
def decodeFrame (frame : List Byte) : DecResult :=
  if frame.length < Config.headerBytes then .error .frameTooShort
  else if frame.length ≠ frameLen frame then .error .invalidLength
  else if frame.length < Config.minFrame then .error .malformedFrame
  else if Config.ptypeStrict = true ∧ 1 < (framePtypeByte frame).toNat then .error .malformedFrame
  else .packet (packetOfFrame frame)

/-! ## Results on the ports. Each transaction sets all ports anew: outputs "hold no value between steps" (10_state.md R27) -/

/-- No port driven. -/
def goIdle (s : State) : State := { s with out := Outputs.idle }

/-- A whole frame is handed to the transport (40_encoder.md R123, 20_memory.md R57 item 4). -/
def giveFrame (bytes : List Byte) (s : State) : State :=
  { s with out := { Outputs.idle with enc := some (.frame bytes) }, outbound := s.outbound ++ bytes }

/-- A packet is returned to the caller of a direct DECODE (41_decoder.md R146). -/
def givePacket (d : Delivery) (s : State) : State :=
  { s with out := { Outputs.idle with dec := some (.packet d) } }

/-- An error is raised to the caller at a port: its kind on that port's error output, no bytes, no packet, no other effect
(60_exceptions.md R209, R210). An error inside RSM is raised to nobody (R211, `swallow`). There is no handler and no
return (R212). -/
def raiseError (caller : Caller) (e : ErrKind) (s : State) : State :=
  match caller with
  | .encode => { s with out := { Outputs.idle with enc := some (.error e) } }
  | .decode => { s with out := { Outputs.idle with dec := some (.error e) } }

/-- The reassembler after a transaction, its outputs on the port and its packets at the consumer (10_state.md R36). -/
def giveRsm (r : Rsm) (outs : List RsOut) (s : State) : State :=
  { s with
    rsm := r
    out := { Outputs.idle with rs := outs }
    delivered := s.delivered ++ packetsOf outs }

/-! ## The reassembler's loop (42_reassembler.md R167) -/

/-- A decode error inside the reassembler: the frame is dropped, the kind is the log (60_exceptions.md R211). -/
def swallow (e : ErrKind) (o : RsOut) : RsOut := { o with ev := .drop, err := some e }

/-- The outputs after DECODE of an extracted frame (42_reassembler.md R166). -/
def reportFrame (frame : List Byte) (o : RsOut) : RsOut :=
  match decodeFrame frame with
  | .packet d => { ev := .packet, err := none, pkt := some d }
  | .error e => swallow e o

/-- The header check (42_reassembler.md R163): an invalid candidate costs one byte, a valid one starts a body. -/
def checkHeader (r : Rsm) (o : RsOut) : Rsm × RsOut :=
  let tl := (hdrLen (le64 (accRead 0 Config.headerBytes r))).toNat
  if lenValid tl then
    ({ r with rsExpected := BitVec.ofNat Config.portLenW tl, rsState := .readingBody }, { o with ev := .header })
  else
    (accDrop 1 r, { o with ev := .resync })

/-- Extraction (42_reassembler.md R164): the frame's bytes are removed whatever DECODE says of them. -/
def extractFrame (r : Rsm) (o : RsOut) : Rsm × RsOut :=
  let frame := accRead 0 r.rsExpected.toNat r
  ({ accDrop r.rsExpected.toNat r with rsExpected := 0, rsState := .seekingHeader }, reportFrame frame o)

/-- One round of the loop: the action that applies, or `none` where the loop exits (42_reassembler.md R162, R164). -/
def rsmAction (r : Rsm) (o : RsOut) : Option (Rsm × RsOut) :=
  match r.rsState with
  | .seekingHeader => if accCount r < Config.headerBytes then none else some (checkHeader r o)
  | .readingBody => if accCount r < r.rsExpected.toNat then none else some (extractFrame r o)

/-- The loop, run to quiescence (42_reassembler.md R165). The first argument only bounds the rounds. -/
def rsmLoop : Nat → Rsm → RsOut → Rsm × RsOut
  | 0, r, o => (r, o)
  | rounds + 1, r, o =>
    match rsmAction r o with
    | none => (r, o)
    | some (r', o') => rsmLoop rounds r' o'

/-- Rounds that always suffice: each byte costs at most two actions (log entry 27). -/
def enoughRounds (r : Rsm) : Nat := 2 * r.acc.length + 3

/-- RS.PUSH as a function of the reassembler (42_reassembler.md R167): append first, then the loop. -/
def pushByte (b : Byte) (r : Rsm) : Rsm × RsOut :=
  let r1 := accAppend b r
  rsmLoop (enoughRounds r1) r1 RsOut.idle

/-- RS.FEED as a function of the reassembler: RS.PUSH of each byte in order (42_reassembler.md R171). -/
def feedBytes : List Byte → Rsm → Rsm × List RsOut
  | [], r => (r, [])
  | b :: bs, r =>
    let (r1, o) := pushByte b r
    let (r2, os) := feedBytes bs r1
    (r2, o :: os)

/-- A chunk into the reassembler as one transaction. -/
def giveChunk (chunk : List Byte) (s : State) : State :=
  let (r, outs) := feedBytes chunk s.rsm
  giveRsm r outs s

/-- The reset state of the reassembler, outputs idle (10_state.md R31): the effect of `reset` and of RS.CLEAR. -/
def resetRsm (s : State) : State := { s with rsm := Rsm.reset, out := Outputs.idle }

end Sys2Proof.Machine
end

