-- ==== Sys2Proof/Machine/Codec.lean ====
section
/-! DEFINITION. The meanings of the frame codec's operations: ENCODE (40_encoder.md) and DECODE (41_decoder.md). Neither
reads or writes the reassembler (10_state.md R25). -/

namespace Sys2Proof.Machine

/-- ENCODE (40_encoder.md R123, R126): the whole frame to the transport, or `PayloadTooLarge` to the caller. -/
def execEncode (payload : List Byte) (flag ptype cmd : Byte) (s : State) : Host.Outcome State Fault Refusal :=
  match encodeFrame payload flag ptype cmd with
  | .frame bytes => .next (giveFrame bytes s)
  | .error e => .next (raiseError .encode e s)

/-- DECODE (41_decoder.md R147, R150): the packet or the error to the caller. -/
def execDecode (frame : List Byte) (s : State) : Host.Outcome State Fault Refusal :=
  match decodeFrame frame with
  | .packet d => .next (givePacket d s)
  | .error e => .next (raiseError .decode e s)

end Sys2Proof.Machine
end

