-- ==== Sys2Proof/Machine/Reassembler.lean ====
section
/-! DEFINITION. The meanings of the reassembler's operations (42_reassembler.md): RS.PUSH, RS.FEED, RS.CLEAR. -/

namespace Sys2Proof.Machine

/-- RS.PUSH (42_reassembler.md R167, R168): registers and the outputs of one step; it never fails (R169). -/
def execRsPush (b : Byte) (s : State) : Host.Outcome State Fault Refusal :=
  let (r, o) := pushByte b s.rsm
  .next (giveRsm r [o] s)

/-- RS.FEED (42_reassembler.md R171, R172): RS.PUSH of each byte, the events and packets in order. -/
def execRsFeed (chunk : List Byte) (s : State) : Host.Outcome State Fault Refusal :=
  .next (giveChunk chunk s)

/-- RS.CLEAR (42_reassembler.md R173): drop every byte, length 0, SeekingHeader; nothing emitted, nothing raised. -/
def execRsClear (s : State) : Host.Outcome State Fault Refusal :=
  .next (resetRsm s)

end Sys2Proof.Machine
end

