-- ==== Sys2Proof/Machine/Wire.lean ====
section
/-! DEFINITION. The meanings of the table's wire patterns (30_encoding.md R81, R87, R101; log entry 4): their bytes arrive on
the inbound stream, where the reassembler's header check (42_reassembler.md R163), extraction (R164) and DECODE (R166) give
the pattern its effect. -/

namespace Sys2Proof.Machine

/-- HDR (30_encoding.md R81): the 8 bytes of a header word arrive; reserved bits and flag play no part (R86, R88). -/
def execHdr (rsvd : BitVec Config.rsvdW) (len : BitVec Config.lenW) (flag : BitVec Config.flagW) (s : State) :
    Host.Outcome State Fault Refusal :=
  .next (giveChunk (bytesLe64 (hdrWord rsvd len flag)) s)

/-- HDR.TX (30_encoding.md R87): the 8 bytes of a header word as a peer's ENCODE writes it arrive. -/
def execHdrTx (len : BitVec Config.portLenW) (flag : BitVec Config.flagW) (s : State) :
    Host.Outcome State Fault Refusal :=
  .next (giveChunk (bytesLe64 (hdrWord 0 (len.setWidth Config.lenW) flag)) s)

/-- FRAME.NONE (30_encoding.md R101): a frame whose byte 8 is `PTYPE_NONE` arrives. -/
def execFrameNone (rsvd : BitVec Config.rsvdW) (flag : BitVec Config.flagW) (cmd : Byte) (payload : List Byte)
    (s : State) : Host.Outcome State Fault Refusal :=
  .next (giveChunk (frameBytes rsvd flag Config.ptypeNone cmd payload) s)

/-- FRAME.STRING (30_encoding.md R101): a frame whose byte 8 is `PTYPE_STRING` arrives. -/
def execFrameString (rsvd : BitVec Config.rsvdW) (flag : BitVec Config.flagW) (cmd : Byte) (payload : List Byte)
    (s : State) : Host.Outcome State Fault Refusal :=
  .next (giveChunk (frameBytes rsvd flag Config.ptypeString cmd payload) s)

end Sys2Proof.Machine
end

