-- ==== Sys2Proof/Machine/Dispatch.lean ====
section
/-! DEFINITION. One arm for each row of spec/opcode_table.json. -/

namespace Sys2Proof.Machine

def exec (i : Instr) (s : State) : Host.Outcome State Fault Refusal :=
  match i with
  | .encode payload flag ptype cmd => Sys2Proof.Machine.execEncode payload flag ptype cmd s
  | .decode frame => Sys2Proof.Machine.execDecode frame s
  | .rsPush b => Sys2Proof.Machine.execRsPush b s
  | .rsFeed chunk => Sys2Proof.Machine.execRsFeed chunk s
  | .rsClear => Sys2Proof.Machine.execRsClear s
  | .hdr rsvd len flag => Sys2Proof.Machine.execHdr rsvd len flag s
  | .hdrTx len flag => Sys2Proof.Machine.execHdrTx len flag s
  | .frameNone rsvd flag cmd payload => Sys2Proof.Machine.execFrameNone rsvd flag cmd payload s
  | .frameString rsvd flag cmd payload => Sys2Proof.Machine.execFrameString rsvd flag cmd payload s

end Sys2Proof.Machine
end

