-- ==== Sys2Proof/Machine/Transact.lean ====
section
/-! DEFINITION. One transaction: taking it from the queue and giving it its effect (10_state.md R35, log entry 1). -/

namespace Sys2Proof.Machine

/-- What a selection does: an operation runs, `reset` puts the reassembler in its reset state, a transaction that drives
nothing leaves the machine idle (60_exceptions.md R224), an excluded one is refused (log entry 21). -/
def runSelected (sel : Selected) (s : State) : Host.Outcome State Fault Refusal :=
  match sel with
  | .op i => exec i s
  | .reset => .next (resetRsm s)
  | .idle => .next (goIdle s)
  | .rejected why => .refused (.notPresentable why)

/-- The oldest transaction is taken, decoded and run; without one the machine is idle. A byte presented together with
`reset` or `rs_clear` is taken and lost (10_state.md R35). -/
def transact (s : State) : Host.Outcome State Fault Refusal :=
  match s.inputs with
  | [] => .next (goIdle s)
  | t :: rest => runSelected (decode t) { s with inputs := rest }

end Sys2Proof.Machine
end

