-- ==== Sys2Proof/Machine/Step.lean ====
section
/-! DEFINITION. One step of the machine is one transaction (20_memory.md R54: "one atomic step"). -/

namespace Sys2Proof.Machine

/-- One step. -/
def step (s : State) : Host.Outcome State Fault Refusal := transact s

/-- `s` with the transaction of a table word waiting as the next one (log entries 1 and 5). -/
def State.withFetchWord (s : State) (nbits w : Nat) : State :=
  { s with inputs := tableTransaction nbits w :: s.inputs }

end Sys2Proof.Machine
end

