-- ==== Sys2Proof/Machine/Chunkwise.lean ====
section
/-! DEFINITION. The source's chunk-wise description of the reassembler (42_reassembler.md R171): append the whole chunk, then
repeat the checks of R163 and R164 until neither applies. No meaning calls it; statements compare RS.FEED with it. -/

namespace Sys2Proof.Machine

/-- The checks repeated until neither applies, with the outputs of every action in order. -/
def chunkLoop : Nat → Rsm → Rsm × List RsOut
  | 0, r => (r, [])
  | rounds + 1, r =>
    match rsmAction r RsOut.idle with
    | none => (r, [])
    | some (r', o) =>
      let (r2, os) := chunkLoop rounds r'
      (r2, o :: os)

/-- A whole chunk at once. -/
def feedChunkwise (chunk : List Byte) (r : Rsm) : Rsm × List RsOut :=
  let r1 := { r with acc := r.acc ++ chunk }
  chunkLoop (enoughRounds r1) r1

/-- The discards, packets and drops among the outputs, in order: what is left when the events that consume no byte
(`EV_NONE`, `EV_HEADER`) are passed over. -/
def discardsAndFrames (outs : List RsOut) : List RsOut :=
  outs.filter fun o => decide (o.ev ≠ .none ∧ o.ev ≠ .header)

end Sys2Proof.Machine
end

