-- ==== Sys2Proof/Machine/Environment.lean ====
section
/-! DEFINITION. The environment's side of the machine (20_memory.md R60): an inbound sequence that need not end stands OUTSIDE
State, which is plain data, as what is presented before each step. No meaning calls this file; statements speak of its runs. -/

namespace Sys2Proof.Machine

/-- What the environment presents before each step, for ever: any transactions in any interleaving of the agents
(60_exceptions.md R222). A sequence that ends is one that presents empty reads from some step on. -/
abbrev Environment := Nat → Transaction

/-- The inbound stream cut into transport reads, in any way (20_memory.md R60). -/
def Environment.ofReads (chunks : Nat → List Byte) : Environment := fun n => .read (chunks n)

/-- The inbound stream as `rs_in_valid` with one byte after another (10_state.md R35). -/
def Environment.ofBytes (bytes : Nat → Byte) : Environment := fun n => .rsm false false true (bytes n)

/-- Every read returns at most `K_MAX` bytes (20_memory.md R60). No result depends on it (decision D23, log entry 20), so no
statement assumes it. -/
def Environment.LegalReads (env : Environment) : Prop := ∀ n chunk, env n = .read chunk → chunk.length ≤ Config.kMax

/-- A transaction joins those that wait. -/
def present (t : Transaction) (s : State) : State := { s with inputs := s.inputs ++ [t] }

/-- `n` steps, each after the environment has presented its next transaction. -/
def runEnv (env : Environment) : Nat → State → Host.Outcome State Fault Refusal
  | 0, s => .next s
  | n + 1, s =>
    match runEnv env n s with
    | .next t => step (present (env n) t)
    | .fault f => .fault f
    | .refused r => .refused r

/-- The bytes that the first `n` reads brought. -/
def readBytes (chunks : Nat → List Byte) (n : Nat) : List Byte := (List.range n).flatMap chunks

end Sys2Proof.Machine
end

