-- ==== Sys2Proof/Safety.lean ====
section
/-! DEFINITION. What counts as a good state (10_state.md R24) and the sequences of operations and noise that the statements
speak of. -/

namespace Sys2Proof.Machine

/-- The invariants of 10_state.md R24 between operations: item 1, then item 2; item 3 follows from them. -/
abbrev Rsm.Inv (r : Rsm) : Prop :=
  (r.rsState = .seekingHeader → r.rsExpected = 0 ∧ r.acc.length ≤ 7) ∧
  (r.rsState = .readingBody →
    9 ≤ r.rsExpected.toNat ∧ r.rsExpected.toNat ≤ 1024 ∧ 8 ≤ r.acc.length ∧
    r.acc.length < r.rsExpected.toNat ∧ frameLen r.acc = r.rsExpected.toNat)

/-- A state whose reassembler meets 10_state.md R24. -/
abbrev State.Inv (s : State) : Prop := s.rsm.Inv

/-- Operations run one after another; the RSM outputs of all of them in order. -/
def runOps : List Instr → State → Host.Outcome (State × List RsOut) Fault Refusal
  | [], s => .next (s, [])
  | i :: is, s =>
    match exec i s with
    | .next t =>
      match runOps is t with
      | .next (u, outs) => .next (u, t.out.rs ++ outs)
      | .fault f => .fault f
      | .refused r => .refused r
    | .fault f => .fault f
    | .refused r => .refused r

/-- No candidate header that starts inside the `n` leading bytes of a stream passes the header check: the corrected
condition of 42_reassembler.md R176 (log entry 23). -/
abbrev NoFalseHeader (n : Nat) (stream : List Byte) : Prop :=
  ∀ p, p < n → lenValid (frameLen (stream.drop p)) = false

/-- The frame of a payload of at most 1014 bytes, byte by byte as 40_encoder.md R127 gives it: byte 0 is the low digit of the
length and the low four bits of the flag, byte 1 the rest of the length, bytes 2 to 7 zero. -/
def plainFrame (payload : List Byte) (flag ptype cmd : Byte) : List Byte :=
  BitVec.ofNat 8 ((10 + payload.length) % 16 * 16 + flag.toNat % 16) ::
    BitVec.ofNat 8 ((10 + payload.length) / 16) :: 0 :: 0 :: 0 :: 0 :: 0 :: 0 :: ptype :: cmd :: payload

/-- The packet that a frame of these fields stands for (10_state.md R32), with the auxiliary flag. -/
def plainPacket (payload : List Byte) (flag ptype cmd : Byte) : Delivery :=
  { packet := { userField := cmd, payload := payload, payloadType := if ptype = 0 then .none else .string }
    flag := BitVec.ofNat 4 (flag.toNat % 16) }

/-- total_length as a sum over the bytes that hold it (30_encoding.md R82). -/
def byteLen (b0 b1 b2 b3 b4 b5 b6 : Byte) : Nat :=
  b0.toNat / 16 + b1.toNat * 2 ^ 4 + b2.toNat * 2 ^ 12 + b3.toNat * 2 ^ 20 + b4.toNat * 2 ^ 28 + b5.toNat * 2 ^ 36 +
    b6.toNat % 2 * 2 ^ 44

/-- What feeding noise `g` and then a frame to an empty reassembler does when the noise is rejected (42_reassembler.md R176):
every noise byte is discarded by a resynchronization of its own, the frame is extracted whole and emitted, or dropped if its
payload_type byte is above 1, and the reassembler is back in its reset state. -/
def NoiseThenFrameRecovers (g payload : List Byte) (flag ptype cmd : Byte) (s : State) : Prop :=
  ∃ t, exec (.rsFeed (g ++ plainFrame payload flag ptype cmd)) s = .next t ∧
    t.rsm = Rsm.reset ∧
    (t.out.rs.filter fun o => decide (o.ev = .resync)).length = g.length ∧
    packetsOf t.out.rs = (if ptype.toNat ≤ 1 then [plainPacket payload flag ptype cmd] else []) ∧
    t.delivered = s.delivered ++ packetsOf t.out.rs

/-- One frame's fields, for streams of several frames. -/
structure FrameFields where
  payload : List Byte
  flag : Byte
  ptype : Byte
  cmd : Byte
  deriving DecidableEq, Repr

/-- Fields of a frame that ENCODE produces and DECODE accepts: the "valid_frame" of 42_reassembler.md R175 (decision D29). -/
abbrev FrameFields.Valid (f : FrameFields) : Prop := f.payload.length ≤ 1014 ∧ f.ptype.toNat ≤ 1

def FrameFields.bytes (f : FrameFields) : List Byte := plainFrame f.payload f.flag f.ptype f.cmd

def FrameFields.delivery (f : FrameFields) : Delivery := plainPacket f.payload f.flag f.ptype f.cmd

end Sys2Proof.Machine
end

