-- ==== Sys2Proof/Certificates/Slice0/Obligations.lean ====
section
/-! DEFINITION. The statements for the provers, from the numbered rules of spec/. "s.rsm = Rsm.reset" says that the
reassembler is in its initial state (10_state.md R31), whatever else the machine holds. Outputs of a transaction stand in the
field `out` (log entry 2); the records `outbound` and `delivered` are the environment's (log entry 3). -/

open Sys2Proof Sys2Proof.Machine

/-! ## Encoding -/

/-- Decode and encode agree on every well-formed instruction: no operand of a port and no bit of a wire pattern is dropped
(10_state.md R33 to R35; 30_encoding.md R81, R87, R101). The transactions are the model's choice (log entries 1, 4, 6, 21). -/
def Obligations.DecodeInvertsEncode : Prop :=
  ∀ i : Instr, i.wellFormed = true → Sys2Proof.decode (encode i) = .op i

/-- Whatever a transaction selects is well-formed: the ports carry no operand outside its range (10_state.md R33, R34). Which
wire pattern bytes select, HDR.TX before HDR among them, and where the ports refuse a length are the model's choices (log
entries 4, 6 and 21). -/
def Obligations.SelectedOperationIsWellFormed : Prop :=
  ∀ (t : Transaction) (i : Instr), Sys2Proof.decode t = .op i → i.wellFormed = true

/-- Words written out from the spec: header vectors HU12, HU1 and H14, frame vectors DV8 and E1 (30_encoding.md R81, R82, R87,
R101), and one transaction of each port (10_state.md R33 to R35, 20_memory.md R60). That a header or a frame is presented as
its wire pattern is the model's choice (log entry 4), HDR.TX before HDR too (log entry 6), the transactions themselves as well
(log entries 1, 21); the pairing of byte 8 with the class names is decision D3 (log entry 9). The clause that drives
`rs_clear` and `rs_in_valid` at once rests on decision D16 (log entry 19, unsafe for just this). -/
def Obligations.WrittenWordsDecode : Prop :=
  Sys2Proof.decode (.wire [0xC0, 0, 0, 0, 0, 0, 0xFE, 0xFF]) = .op (.hdr 0x7FFF 12 0) ∧
  Sys2Proof.decode (.wire [0, 0, 0, 0, 0, 0, 0, 0]) = .op (.hdr 0 0 0) ∧
  Sys2Proof.decode (.wire [0x0F, 0x40, 0, 0, 0, 0, 0, 0]) = .op (.hdrTx 1024 15) ∧
  Sys2Proof.decode (.wire [0xA0, 0, 0, 0, 0, 0, 0, 0, 0, 5]) = .op (.frameNone 0 0 5 []) ∧
  Sys2Proof.decode (.wire [0xC0, 0, 0, 0, 0, 0, 0, 0, 1, 7, 0x68, 0x69]) = .op (.frameString 0 0 7 [0x68, 0x69]) ∧
  Sys2Proof.decode (.enc [0x68, 0x69] 0 1 7) = .op (.encode [0x68, 0x69] 0 1 7) ∧
  Sys2Proof.decode (.dec [0x50]) = .op (.decode [0x50]) ∧
  Sys2Proof.decode (.rsm false false true 0xC0) = .op (.rsPush 0xC0) ∧
  Sys2Proof.decode (.rsm false true true 0xC0) = .op .rsClear ∧
  Sys2Proof.decode (.read [1, 2, 3]) = .op (.rsFeed [1, 2, 3])

/-- The laws of the header helpers, both directions (30_encoding.md R93). That total_length has bit 48 is decision D1 (log
entry 7). -/
def Obligations.HeaderHelperLaws : Prop :=
  (∀ (tl : Nat) (f : Byte), tl < 2 ^ 45 →
    (hdrLen (le64 (hdrPack tl f))).toNat = tl ∧
    (hdrFlag (le64 (hdrPack tl f))).toNat = f.toNat &&& 0xF ∧
    hdrRsvd (le64 (hdrPack tl f)) = 0) ∧
  ∀ w : HeaderWord, hdrPack (hdrLen w).toNat ((hdrFlag w).setWidth 8) = bytesLe64 w ↔ hdrRsvd w = 0

/-- The header byte by byte (30_encoding.md R82). That total_length has bit 48 is decision D1 (log entry 7). -/
def Obligations.HeaderByteLayout : Prop :=
  ∀ (rsvd : BitVec 15) (tl : BitVec 45) (f : BitVec 4),
    bytesLe64 (hdrWord rsvd tl f) =
      [(tl.extractLsb' 0 4 ++ f : BitVec (4 + 4)), tl.extractLsb' 4 8, tl.extractLsb' 12 8, tl.extractLsb' 20 8,
        tl.extractLsb' 28 8, tl.extractLsb' 36 8, (rsvd.extractLsb' 0 7 ++ tl.extractLsb' 44 1 : BitVec (7 + 1)),
        rsvd.extractLsb' 7 8]

/-- The header check in bits and in bytes (30_encoding.md R94): bits 7:1 of byte 6 and byte 7 are not examined
(decision D2, log entry 8), bit 0 of byte 6 is (decision D1, log entry 7). -/
def Obligations.HeaderCheckInBits : Prop :=
  (∀ w : HeaderWord, lenValid (hdrLen w).toNat = true ↔
    w.extractLsb' 15 34 = 0 ∧ 8 ≤ (w.extractLsb' 4 11).toNat ∧ (w.extractLsb' 4 11).toNat ≤ 1024) ∧
  ∀ b0 b1 b2 b3 b4 b5 b6 b7 : Byte, lenValid (frameLen [b0, b1, b2, b3, b4, b5, b6, b7]) = true ↔
    b2 = 0 ∧ b3 = 0 ∧ b4 = 0 ∧ b5 = 0 ∧ b6.toNat % 2 = 0 ∧ b1.toNat < 128 ∧
    8 ≤ b1.toNat % 128 * 16 + b0.toNat / 16 ∧ b1.toNat % 128 * 16 + b0.toNat / 16 ≤ 1024

/-- The two frame classes by the table's masks over the first ten bytes as an 80-bit number (30_encoding.md R101): given the
length condition, which class a frame is in is exactly which packet type DECODE gives it, a frame in neither class is
malformed, and a frame that ENCODE produces has bits 63:15 zero. The pairing of codes and names is decision D3, the rejection
D4 (PTYPE_STRICT; log entries 9, 10); frames with reserved bits 63:49 set are included, which decode by decision D2
(30_encoding.md R88, log entry 8), and frames above 1024 bytes, which decode by D8 (41_decoder.md R148, log entry 13). -/
def Obligations.FrameClassesByMask : Prop :=
  (∀ frame : List Byte, 10 ≤ frame.length → frameLen frame = frame.length →
    (leNat (frame.take 10) &&& (0xFF <<< 64) = 0 ↔
      ∃ d, decodeFrame frame = .packet d ∧ d.packet.payloadType = .none) ∧
    (leNat (frame.take 10) &&& (0xFF <<< 64) = 1 <<< 64 ↔
      ∃ d, decodeFrame frame = .packet d ∧ d.packet.payloadType = .string) ∧
    (leNat (frame.take 10) &&& (0xFF <<< 64) ≠ 0 ∧ leNat (frame.take 10) &&& (0xFF <<< 64) ≠ 1 <<< 64 ↔
      decodeFrame frame = .error .malformedFrame)) ∧
  ∀ (payload frame : List Byte) (flag ptype cmd : Byte), encodeFrame payload flag ptype cmd = .frame frame →
    leNat (frame.take 10) / 2 ^ 15 % 2 ^ 49 = 0

/-! ## The step -/

/-- A step takes the oldest transaction and runs exactly the operation it selects (log entry 1). -/
def Obligations.StepRunsSelectedOperation : Prop :=
  ∀ (s : State) (t : Transaction) (rest : List Transaction) (i : Instr),
    s.inputs = t :: rest → Sys2Proof.decode t = .op i → step s = exec i { s with inputs := rest }

/-- The RSM inputs: reset wins over clear, clear over a byte, and the byte presented with either is lost
(10_state.md R35, 60_exceptions.md R208; decision D16, log entry 19). A transaction that drives none of them, and a step with no
transaction, leave the machine idle with all its state (60_exceptions.md R224). -/
def Obligations.RsmInputPriority : Prop :=
  (∀ (s : State) (reset clear valid : Bool) (b : Byte) (rest : List Transaction),
    s.inputs = .rsm reset clear valid b :: rest →
    (reset = true →
      step s = .next { s with
        rsm := { rsState := .seekingHeader, rsExpected := 0, acc := [] }
        out := { enc := none, dec := none, rs := [] }
        inputs := rest }) ∧
    (reset = false → clear = true → step s = exec .rsClear { s with inputs := rest }) ∧
    (reset = false → clear = false → valid = true → step s = exec (.rsPush b) { s with inputs := rest }) ∧
    (reset = false → clear = false → valid = false →
      step s = .next { s with out := { enc := none, dec := none, rs := [] }, inputs := rest })) ∧
  ∀ s : State, s.inputs = [] → step s = .next { s with out := { enc := none, dec := none, rs := [] } }

/-- The machine stops only where the ports exclude the transaction, under the reason's name (log entry 21): an ENC payload
above 65535 bytes (93_implementation_defined.md U13 "Not presentable at the ports (`refuse` at the model's boundary"), a DEC
frame above 1024 bytes (U12 "At the port: not presentable"), and nothing else; bytes on the inbound stream, whatever they
are and whether named by a wire pattern or not, are never refused (20_memory.md R60). Nothing ever faults. -/
def Obligations.OnlyExcludedTransactionsStop : Prop :=
  (∀ s : State, (∃ t, step s = .next t) ∨
    ∃ t rest why, s.inputs = t :: rest ∧ Sys2Proof.decode t = .rejected why ∧ step s = .refused (.notPresentable why)) ∧
  (∀ (payload : List Byte) (flag ptype cmd : Byte),
    (∃ why, Sys2Proof.decode (.enc payload flag ptype cmd) = .rejected why) ↔ 65535 < payload.length) ∧
  (∀ frame : List Byte, (∃ why, Sys2Proof.decode (.dec frame) = .rejected why) ↔ 1024 < frame.length) ∧
  (∀ (reset clear valid : Bool) (b : Byte) (why : Reject),
    Sys2Proof.decode (.rsm reset clear valid b) ≠ .rejected why) ∧
  ∀ (bytes : List Byte) (why : Reject),
    Sys2Proof.decode (.read bytes) ≠ .rejected why ∧ Sys2Proof.decode (.wire bytes) ≠ .rejected why

/-- The length inputs are the numbers of bytes presented (10_state.md R33, R34): their 16 and 11 bits lose nothing of any
length the ports admit, and the port then runs the operation on exactly the bytes presented. That the length is computed
from the bytes is the model's choice (log entry 21). -/
def Obligations.LengthInputsCountTheBytes : Prop :=
  (∀ (payload : List Byte) (flag ptype cmd : Byte), payload.length ≤ 65535 →
    (encLen payload).toNat = payload.length ∧
    Sys2Proof.decode (.enc payload flag ptype cmd) = .op (.encode payload flag ptype cmd)) ∧
  ∀ frame : List Byte, frame.length ≤ 1024 →
    (decLen frame).toNat = frame.length ∧ Sys2Proof.decode (.dec frame) = .op (.decode frame)

/-- A wire transaction selects an instruction that does what its bytes do on the inbound stream, in every state, so noise,
torn and corrupted frames are all admitted (20_memory.md R60); it is named HDR or HDR.TX exactly when it has 8 bytes, and a
frame class exactly when it has 10 to 1024 bytes, its total_length is their number and byte 8 is the class's
(30_encoding.md R81, R87, R101); everything else is RS.FEED of the bytes (the model's choice, log entries 4 and 6). -/
def Obligations.WireTransactionsActAsTheirBytes : Prop :=
  ∀ bytes : List Byte, ∃ i, Sys2Proof.decode (.wire bytes) = .op i ∧
    (∀ s : State, exec i s = exec (.rsFeed bytes) s) ∧
    ((∃ rsvd len flag, i = .hdr rsvd len flag) ∨ (∃ len flag, i = .hdrTx len flag) ↔ bytes.length = 8) ∧
    ((∃ rsvd flag cmd payload, i = .frameNone rsvd flag cmd payload) ↔
      10 ≤ bytes.length ∧ bytes.length ≤ 1024 ∧ frameLen bytes = bytes.length ∧ bytes.getD 8 0 = 0) ∧
    ((∃ rsvd flag cmd payload, i = .frameString rsvd flag cmd payload) ↔
      10 ≤ bytes.length ∧ bytes.length ≤ 1024 ∧ frameLen bytes = bytes.length ∧ bytes.getD 8 0 = 1) ∧
    (i = .rsFeed bytes ↔ bytes.length ≠ 8 ∧
      ¬ (10 ≤ bytes.length ∧ bytes.length ≤ 1024 ∧ frameLen bytes = bytes.length ∧ (bytes.getD 8 0).toNat ≤ 1))

/-- Every instruction completes in every state, whatever its operands: no operation has a trap, a mode or a wait
(60_exceptions.md R200, R214, 42_reassembler.md R169). -/
def Obligations.EveryInstructionCompletes : Prop :=
  ∀ (i : Instr) (s : State), ∃ t, exec i s = .next t

/-- Only a transaction on the reassembler's inputs can change the reassembler (10_state.md R25). -/
def Obligations.OnlyRsmTransactionsChangeTheReassembler : Prop :=
  ∀ s t : State, step s = .next t → t.rsm ≠ s.rsm →
    ∃ (x : Transaction) (rest : List Transaction), s.inputs = x :: rest ∧ x.port = .rsm

/-- The writer's and a caller's operations commute with the reader's: the same results for each and the same final state,
but for the output field, which shows the later transaction (60_exceptions.md R222). -/
def Obligations.CodecCommutesWithReassembler : Prop :=
  ∀ (i j : Instr) (s : State), i.port ≠ .rsm → j.port = .rsm →
    ∃ t u t' u', exec i s = .next t ∧ exec j t = .next u ∧ exec j s = .next t' ∧ exec i t' = .next u' ∧
      { u with out := Outputs.idle } = { u' with out := Outputs.idle } ∧ t.out = u'.out ∧ u.out = t'.out

/-! ## Reset and the invariants -/

/-- The reset state (10_state.md R31, decisions D11, D12; 60_exceptions.md codes R37, R38) and that it meets R24.
The empty environment fields are the model's choice (log entry 28). -/
def Obligations.ResetState : Prop :=
  State.reset.rsm.rsState = .seekingHeader ∧ State.reset.rsm.rsExpected = 0 ∧ State.reset.rsm.acc = [] ∧
  State.reset.rsEv = 0 ∧ State.reset.rsErr = 0 ∧ State.reset.rsPktValid = false ∧
  State.reset.stState = 0 ∧ State.reset.stExpected = 0 ∧ State.reset.stCount = 0 ∧ State.reset.Inv

/-- The invariants of 10_state.md R24 are kept by every step, from every state that meets them. -/
def Obligations.StepKeepsInvariants : Prop :=
  ∀ s t : State, s.Inv → step s = .next t → t.Inv

/-- The same for every operation, and the bounds of R24 item 3 and 42_reassembler.md R178: at most 1023 bytes and a remembered
length of at most 1024 after it, and never more than `ACC_CAP` bytes at any round inside a push. -/
def Obligations.AccumulatorStaysBounded : Prop :=
  ∀ s : State, s.Inv →
    (∀ i t, exec i s = .next t →
      t.Inv ∧ t.rsm.acc.length ≤ 1023 ∧ t.rsm.rsExpected.toNat ≤ 1024 ∧ Memory.wf t.rsm.acc) ∧
    ∀ (b : Byte) (rounds : Nat) (o : RsOut), (rsmLoop rounds (accAppend b s.rsm) o).1.acc.length ≤ 1024

/-- The status outputs show the registers (10_state.md R28): within the invariants `st_count` loses nothing to its 11 bits. -/
def Obligations.StatusOutputsShowState : Prop :=
  ∀ s : State, s.Inv →
    s.stCount.toNat = s.rsm.acc.length ∧ s.stExpected = s.rsm.rsExpected ∧
    (s.stState = 0 ↔ s.rsm.rsState = .seekingHeader) ∧ (s.stState = 1 ↔ s.rsm.rsState = .readingBody)

/-- The codes of events and errors (10_state.md R37, R38; decisions D9, D17); 5 to 7 are never produced. -/
def Obligations.OutputCodes : Prop :=
  RsEvent.code .none = 0 ∧ RsEvent.code .resync = 1 ∧ RsEvent.code .header = 2 ∧ RsEvent.code .packet = 3 ∧
  RsEvent.code .drop = 4 ∧ errCode none = 0 ∧ errCode (some .payloadTooLarge) = 1 ∧
  errCode (some .frameTooShort) = 2 ∧ errCode (some .invalidLength) = 3 ∧ errCode (some .malformedFrame) = 4 ∧
  (∀ e : RsEvent, e.code.toNat ≤ 4) ∧ ∀ e : Option ErrKind, (errCode e).toNat ≤ 4

/-! ## ENCODE -/

/-- ENCODE of at most 1014 bytes completes with the whole frame, byte by byte as 40_encoder.md R127 gives it, on the port
and on the outbound stream, and changes nothing else; the frame's header fields and length are as R127 says; and the ports
show it: `enc_err` is `ERR_OK`, `enc_frame_len` is 10 + N, `enc_frame` the frame (10_state.md R33; the code 0 is decision D9,
log entry 14), and the other blocks' ports show nothing (log entry 2). -/
def Obligations.EncodeProducesWholeFrame : Prop :=
  ∀ (payload : List Byte) (flag ptype cmd : Byte) (s : State), payload.length ≤ 1014 →
    ∃ t, exec (.encode payload flag ptype cmd) s = .next t ∧
      t = { s with
        out := { enc := some (.frame (plainFrame payload flag ptype cmd)), dec := none, rs := [] }
        outbound := s.outbound ++ plainFrame payload flag ptype cmd } ∧
      t.encErr = some 0 ∧ (∃ n, t.encFrameLen = some n ∧ n.toNat = 10 + payload.length) ∧
      t.encFrame = some (plainFrame payload flag ptype cmd) ∧
      t.decErr = none ∧ t.decPkt = none ∧ t.rsEv = 0 ∧ t.rsErr = 0 ∧ t.rsPktValid = false ∧
      (plainFrame payload flag ptype cmd).length = 10 + payload.length ∧
      frameLen (plainFrame payload flag ptype cmd) = 10 + payload.length ∧
      (hdrFlag (le64 ((plainFrame payload flag ptype cmd).take 8))).toNat = flag.toNat &&& 0xF ∧
      hdrRsvd (le64 ((plainFrame payload flag ptype cmd).take 8)) = 0 ∧
      ((plainFrame payload flag ptype cmd).getD 1 0).toNat ≤ 0x40

/-- ENCODE raises `PayloadTooLarge` exactly when the payload is longer than 1014 bytes, whatever the other operands, and
raises nothing else; on the error no byte is produced and nothing but the error output changes (40_encoder.md R121, R126;
10_state.md R33, R38). The codes 1 and 0 on `enc_err` are decision D9 (log entry 14). -/
def Obligations.EncodeTooLargeProducesNothing : Prop :=
  ∀ (payload : List Byte) (flag ptype cmd : Byte) (s : State),
    (1014 < payload.length →
      exec (.encode payload flag ptype cmd) s = .next { s with
        out := { enc := some (.error .payloadTooLarge), dec := none, rs := [] } }) ∧
    ∀ t, exec (.encode payload flag ptype cmd) s = .next t →
      (t.encErr = some 1 ↔ 1024 < 8 + 2 + payload.length) ∧ (t.encErr = some 0 ↔ payload.length ≤ 1014) ∧
      (t.encErr = some 1 → t.encFrame = some [] ∧ t.encFrameLen = some 0 ∧ t.outbound = s.outbound)

/-- The round trip (40_encoder.md R128): DECODE of what ENCODE produced returns the triple, in any two states, and the
auxiliary flag is the low four bits of the flag. The code of a type name is decision D3 (log entry 9). -/
def Obligations.EncodeDecodeRoundTrip : Prop :=
  ∀ (payload : List Byte) (flag ptype cmd : Byte) (s s' : State),
    payload.length ≤ 1014 → ptype = 0 ∨ ptype = 1 →
    ∃ t frame ptypeName, exec (.encode payload flag ptype cmd) s = .next t ∧ t.encFrame = some frame ∧
      exec (.decode frame) s' = .next { s' with
        out :=
          { enc := none
            dec := some (.packet
              { packet := { userField := cmd, payload := payload, payloadType := ptypeName }
                flag := BitVec.ofNat 4 (flag.toNat % 16) })
            rs := [] } } ∧
      PayloadType.byte ptypeName = ptype

/-! ## DECODE -/

/-- Fewer than 8 bytes: `FrameTooShort`, whatever the bytes (41_decoder.md R141), and nothing else changes. -/
def Obligations.DecodeTooShort : Prop :=
  ∀ (frame : List Byte) (s : State),
    (frame.length < 8 →
      exec (.decode frame) s = .next { s with
        out := { enc := none, dec := some (.error .frameTooShort), rs := [] } }) ∧
    (8 ≤ frame.length →
      exec (.decode frame) s ≠ .next { s with
        out := { enc := none, dec := some (.error .frameTooShort), rs := [] } })

/-- DECODE of 8 bytes or more: the length field, as a sum over the bytes, against the number of bytes; then the metadata;
then the payload_type byte; else the packet with every field from its bytes (41_decoder.md R142 to R147, R150; the order is
decision D7, the type check decision D4 (PTYPE_STRICT), the names decision D3; log entries 12, 10, 9). Byte 7 and bits 7:1 of byte 6 play no part (decision D2, log entry
8), bit 0 of byte 6 does (decision D1, log entry 7). That more than 1024 bytes decode is decision D8 (41_decoder.md R148, log entry 13). -/
def Obligations.DecodeOutcome : Prop :=
  ∀ (b0 b1 b2 b3 b4 b5 b6 b7 : Byte) (rest : List Byte) (s : State),
    exec (.decode (b0 :: b1 :: b2 :: b3 :: b4 :: b5 :: b6 :: b7 :: rest)) s = .next { s with
      out :=
        { enc := none
          dec := some
            (if 8 + rest.length ≠ byteLen b0 b1 b2 b3 b4 b5 b6 then .error .invalidLength
             else match rest with
              | [] => .error .malformedFrame
              | [_] => .error .malformedFrame
              | ptype :: cmd :: payload =>
                if 1 < ptype.toNat then .error .malformedFrame
                else .packet
                  { packet :=
                      { userField := cmd, payload := payload, payloadType := if ptype = 0 then .none else .string }
                    flag := BitVec.ofNat 4 (b0.toNat % 16) })
          rs := [] } }

/-- What the DEC port shows after DECODE of any bytes (10_state.md R34, 41_decoder.md R146, R150): the code on `dec_err`, 0 or
2 to 4, exactly when each cause holds; with the code 0 the packet, `dec_flag`, and `dec_payload_len` = L - 10; with any other
no packet, no length and no flag. The other ports show nothing (log entry 2) and the status outputs stay. The codes are
decision D9 (log entry 14), the order D7 (log entry 12), the type check and names D4 (PTYPE_STRICT) and D3 (log entries 10, 9), ignored
reserved bits D2 (log entry 8), and packets from more than 1024 bytes D8 (41_decoder.md R148, log entry 13): the 11-bit
length is stated up to the port's 1024. -/
def Obligations.DecodePortsShowOutcome : Prop :=
  ∀ (frame : List Byte) (s : State), ∃ t, exec (.decode frame) s = .next t ∧
    t.encErr = none ∧ t.encFrame = none ∧ t.rsEv = 0 ∧ t.rsErr = 0 ∧ t.rsPktValid = false ∧
    t.stState = s.stState ∧ t.stExpected = s.stExpected ∧ t.stCount = s.stCount ∧
    (t.decErr ≠ some 0 → t.decPkt = none ∧ t.decPayloadLen = none ∧ t.decFlag = none) ∧
    (t.decErr = some 2 ↔ frame.length < 8) ∧
    (t.decErr = some 3 ↔ 8 ≤ frame.length ∧ frame.length ≠ frameLen frame) ∧
    (t.decErr = some 4 ↔ 8 ≤ frame.length ∧ frame.length = frameLen frame ∧
      (frame.length ≤ 9 ∨ 1 < (frame.getD 8 0).toNat)) ∧
    (t.decErr = some 0 ↔ 10 ≤ frame.length ∧ frame.length = frameLen frame ∧ (frame.getD 8 0).toNat ≤ 1) ∧
    (t.decErr = some 0 →
      t.decPkt = some
        { userField := frame.getD 9 0, payload := frame.drop 10
          payloadType := if frame.getD 8 0 = 0 then .none else .string } ∧
      t.decFlag = some (BitVec.ofNat 4 ((frame.getD 0 0).toNat % 16)) ∧
      (frame.length ≤ 1024 → ∃ n, t.decPayloadLen = some n ∧ n.toNat = frame.length - 10))

/-- No port ever shows a packet with a payload above 1014 bytes, from DEC or from RSM, and the length outputs lose nothing to
their 11 bits (10_state.md R32, R34, R36; 92_eei_decisions.md D8: this "holds for the port and for RSM, not for the bare
function", log entry 13). -/
def Obligations.PortPayloadsAreAtMost1014Bytes : Prop :=
  ∀ s t : State, s.Inv → step s = .next t →
    (∀ p, t.decPkt = some p → p.payload.length ≤ 1014 ∧ ∃ n, t.decPayloadLen = some n ∧ n.toNat = p.payload.length) ∧
    (∀ d ∈ packetsOf t.out.rs, d.packet.payload.length ≤ 1014) ∧
    ∀ p, t.rsPkt = some p → ∃ n, t.rsPktPayloadLen = some n ∧ n.toNat = p.payload.length

/-- Reserved bits and the flag never decide anything, and DECODE has no upper bound of its own (30_encoding.md R86, R88;
41_decoder.md R148, R151; decisions D2, D8, log entries 8, 13): a frame of any length the field can hold decodes to its
fields. The name of the decoded type is decision D3 (log entry 9). -/
def Obligations.DecodeIgnoresReservedBitsAndFlag : Prop :=
  ∀ (rsvd : BitVec 15) (flag : BitVec 4) (ptype cmd : Byte) (payload : List Byte) (s : State),
    10 + payload.length < 2 ^ 45 → ptype.toNat ≤ 1 →
    exec (.decode (frameBytes rsvd flag ptype cmd payload)) s = .next { s with
      out :=
        { enc := none
          dec := some (.packet
            { packet := { userField := cmd, payload := payload, payloadType := if ptype = 0 then .none else .string }
              flag := flag })
          rs := [] } }

/-! ## RS.PUSH -/

/-- RS.PUSH in SeekingHeader, every case of 42_reassembler.md R170 (rules R161 to R163, R165; the case of length 8 is
decision D13, log entry 16; the header check ignores reserved bits by D2 and examines bit 48 by D1, log entries 8, 7). -/
def Obligations.PushWhileSeeking : Prop :=
  ∀ (s : State) (b : Byte), s.Inv → s.rsm.rsState = .seekingHeader →
    ((s.rsm.acc ++ [b]).length < 8 →
      exec (.rsPush b) s = .next { s with
        rsm := { rsState := .seekingHeader, rsExpected := 0, acc := s.rsm.acc ++ [b] }
        out := { enc := none, dec := none, rs := [{ ev := .none, err := none, pkt := none }] } }) ∧
    ((s.rsm.acc ++ [b]).length = 8 →
      (frameLen (s.rsm.acc ++ [b]) < 8 ∨ 1024 < frameLen (s.rsm.acc ++ [b]) →
        exec (.rsPush b) s = .next { s with
          rsm := { rsState := .seekingHeader, rsExpected := 0, acc := (s.rsm.acc ++ [b]).drop 1 }
          out := { enc := none, dec := none, rs := [{ ev := .resync, err := none, pkt := none }] } }) ∧
      (frameLen (s.rsm.acc ++ [b]) = 8 →
        exec (.rsPush b) s = .next { s with
          rsm := { rsState := .seekingHeader, rsExpected := 0, acc := [] }
          out := { enc := none, dec := none, rs := [{ ev := .drop, err := some .malformedFrame, pkt := none }] } }) ∧
      (9 ≤ frameLen (s.rsm.acc ++ [b]) → frameLen (s.rsm.acc ++ [b]) ≤ 1024 →
        exec (.rsPush b) s = .next { s with
          rsm :=
            { rsState := .readingBody
              rsExpected := BitVec.ofNat 11 (frameLen (s.rsm.acc ++ [b]))
              acc := s.rsm.acc ++ [b] }
          out := { enc := none, dec := none, rs := [{ ev := .header, err := none, pkt := none }] } }))

/-- RS.PUSH in ReadingBody (42_reassembler.md R164, R166; 60_exceptions.md R211): below the remembered length the byte is
stored unexamined; with the last byte the frame, of 9 to 1024 bytes, is removed and DECODE decides only what is reported.
What DECODE answers is left to decodeFrame: no decision about it is used here. -/
def Obligations.PushWhileReading : Prop :=
  ∀ (s : State) (b : Byte), s.Inv → s.rsm.rsState = .readingBody →
    ((s.rsm.acc ++ [b]).length < s.rsm.rsExpected.toNat →
      exec (.rsPush b) s = .next { s with
        rsm := { rsState := .readingBody, rsExpected := s.rsm.rsExpected, acc := s.rsm.acc ++ [b] }
        out := { enc := none, dec := none, rs := [{ ev := .none, err := none, pkt := none }] } }) ∧
    ((s.rsm.acc ++ [b]).length = s.rsm.rsExpected.toNat →
      8 ≤ (s.rsm.acc ++ [b]).length ∧ (s.rsm.acc ++ [b]).length ≤ 1024 ∧
      (∀ d, decodeFrame (s.rsm.acc ++ [b]) = .packet d →
        exec (.rsPush b) s = .next { s with
          rsm := { rsState := .seekingHeader, rsExpected := 0, acc := [] }
          out := { enc := none, dec := none, rs := [{ ev := .packet, err := none, pkt := some d }] }
          delivered := s.delivered ++ [d] }) ∧
      ∀ e, decodeFrame (s.rsm.acc ++ [b]) = .error e →
        exec (.rsPush b) s = .next { s with
          rsm := { rsState := .seekingHeader, rsExpected := 0, acc := [] }
          out := { enc := none, dec := none, rs := [{ ev := .drop, err := some e, pkt := none }] } })

/-- RS.PUSH runs to quiescence in every state, reachable or not (42_reassembler.md R165, decision D13, log entry 16): afterwards neither
check applies. -/
def Obligations.PushRunsToQuiescence : Prop :=
  ∀ (s : State) (b : Byte), ∃ t, exec (.rsPush b) s = .next t ∧
    ((t.rsm.rsState = .seekingHeader ∧ t.rsm.acc.length < 8) ∨
      (t.rsm.rsState = .readingBody ∧ t.rsm.acc.length < t.rsm.rsExpected.toNat))

/-- RS.PUSH reports no error but `MalformedFrame`, always with `EV_DROP`, and exactly when the bytes held make up the announced
frame and it has 8 or 9 bytes or a payload_type byte above 1 (42_reassembler.md R169). That a byte above 1 is an error is decision
D4 (PTYPE_STRICT, log entry 10), that a frame of 8 bytes is reported in the step that completes it D13 (log entry 16), that
reserved bits do not matter D2 (log entry 8). -/
def Obligations.PushReportsOnlyMalformedFrame : Prop :=
  ∀ (s : State) (b : Byte), s.Inv →
    ∃ t o, exec (.rsPush b) s = .next t ∧ t.out.rs = [o] ∧
      (o.err = none ∨ o.err = some .malformedFrame) ∧ (o.err = some .malformedFrame ↔ o.ev = .drop) ∧
      (o.err = some .malformedFrame ↔
        8 ≤ (s.rsm.acc ++ [b]).length ∧ (s.rsm.acc ++ [b]).length = frameLen (s.rsm.acc ++ [b]) ∧
        (frameLen (s.rsm.acc ++ [b]) ≤ 9 ∨ 1 < ((s.rsm.acc ++ [b]).getD 8 0).toNat))

/-- What the RSM port shows after RS.PUSH, every row of 42_reassembler.md R170 (10_state.md R36, R37; codes by decisions D9
and D17, log entry 14; names D3, log entry 9; length 8 D13, log entry 16; ignored reserved bits D2, log entry 8;
the drop of a byte 8 above 1 D4, PTYPE_STRICT, log entry 10): `rs_ev` and
`rs_err`, and with `EV_PACKET`, and only with it, `rs_pkt_valid`, the packet, its length and its flag. The ENC and DEC ports
show nothing (log entry 2). -/
def Obligations.PushPortsShowEvent : Prop :=
  ∀ (s : State) (b : Byte) (held : List Byte), s.Inv → held = s.rsm.acc ++ [b] →
    ∃ t, exec (.rsPush b) s = .next t ∧
      t.encErr = none ∧ t.encFrame = none ∧ t.decErr = none ∧ t.decPkt = none ∧
      (t.rsPktValid = true ↔ t.rsEv = 3) ∧
      (t.rsPktValid = false → t.rsPkt = none ∧ t.rsPktPayloadLen = none ∧ t.rsPktFlag = none) ∧
      (s.rsm.rsState = .seekingHeader →
        (held.length < 8 → t.rsEv = 0 ∧ t.rsErr = 0) ∧
        (held.length = 8 → frameLen held < 8 ∨ 1024 < frameLen held → t.rsEv = 1 ∧ t.rsErr = 0) ∧
        (held.length = 8 → 9 ≤ frameLen held → frameLen held ≤ 1024 → t.rsEv = 2 ∧ t.rsErr = 0) ∧
        (held.length = 8 → frameLen held = 8 → t.rsEv = 4 ∧ t.rsErr = 4)) ∧
      (s.rsm.rsState = .readingBody →
        (held.length < s.rsm.rsExpected.toNat → t.rsEv = 0 ∧ t.rsErr = 0) ∧
        (held.length = s.rsm.rsExpected.toNat → held.length = 9 ∨ 1 < (held.getD 8 0).toNat →
          t.rsEv = 4 ∧ t.rsErr = 4) ∧
        (held.length = s.rsm.rsExpected.toNat → 10 ≤ held.length → (held.getD 8 0).toNat ≤ 1 →
          t.rsEv = 3 ∧ t.rsErr = 0 ∧
          t.rsPkt = some
            { userField := held.getD 9 0, payload := held.drop 10
              payloadType := if held.getD 8 0 = 0 then .none else .string } ∧
          (∃ n, t.rsPktPayloadLen = some n ∧ n.toNat = held.length - 10) ∧
          t.rsPktFlag = some (BitVec.ofNat 4 ((held.getD 0 0).toNat % 16))))

/-! ## RS.FEED and RS.CLEAR -/

/-- RS.FEED is its RS.PUSHes in order, in every state: the same registers and records, and the events and packets of the
pushes one after another (42_reassembler.md R171; nothing at all for the empty chunk, R172; decision D14, log
entry 17). -/
def Obligations.FeedIsPushesInOrder : Prop :=
  (∀ (chunk : List Byte) (s : State), ∃ u outs, runOps (chunk.map Instr.rsPush) s = .next (u, outs) ∧
    exec (.rsFeed chunk) s = .next { u with out := { enc := none, dec := none, rs := outs } }) ∧
  ∀ s : State, exec (.rsFeed []) s = .next { s with out := { enc := none, dec := none, rs := [] } }

/-- The result depends on the bytes and not on how they are cut into chunks (20_memory.md R57 item 3, R60): any chunks, and so
any `K_MAX`, give what one chunk gives (decision D14, log entry 17). -/
def Obligations.FeedIgnoresChunkBoundaries : Prop :=
  ∀ (chunks : List (List Byte)) (s : State), ∃ t u outs,
    runOps (chunks.map Instr.rsFeed) s = .next (t, outs) ∧ exec (.rsFeed chunks.flatten) s = .next u ∧
    u.out.rs = outs ∧ { t with out := Outputs.idle } = { u with out := Outputs.idle }

/-- The inbound stream may be infinite and is cut into reads in any way (20_memory.md R60, R57 item 3; 42_reassembler.md R178):
whatever never-ending stream arrives, in whatever reads, every number of steps completes within the invariants; and reads
that brought the same bytes as single-byte transactions leave the same registers and the same packets, in the same order. No
hypothesis bounds the reads, so this covers every `K_MAX` (decision D23, log entry 20). The run is the model's (log entry 1). -/
def Obligations.InfiniteStreamsAreConsumed : Prop :=
  (∀ (chunks : Nat → List Byte) (n : Nat) (s : State), s.Inv → s.inputs = [] →
    ∃ t, runEnv (.ofReads chunks) n s = .next t ∧ t.Inv ∧ t.rsm.acc.length ≤ 1023 ∧ t.inputs = []) ∧
  ∀ (bytes : Nat → Byte) (chunks : Nat → List Byte) (n m : Nat) (s : State), s.inputs = [] →
    readBytes chunks n = (List.range m).map bytes →
    ∃ t u, runEnv (.ofReads chunks) n s = .next t ∧ runEnv (.ofBytes bytes) m s = .next u ∧
      t.rsm = u.rsm ∧ t.delivered = u.delivered ∧ t.outbound = u.outbound

/-- RS.FEED byte by byte is the source's chunk-wise algorithm (42_reassembler.md R171): the same registers, packets, discards
and drops in the same order (decisions D13 and D14, log entries 16, 17). -/
def Obligations.ChunkwiseGivesSameResults : Prop :=
  ∀ (chunk : List Byte) (s : State), s.Inv → ∃ t, exec (.rsFeed chunk) s = .next t ∧
    t.rsm = (feedChunkwise chunk s.rsm).1 ∧
    packetsOf t.out.rs = packetsOf (feedChunkwise chunk s.rsm).2 ∧
    discardsAndFrames t.out.rs = discardsAndFrames (feedChunkwise chunk s.rsm).2

/-- RS.CLEAR from any state: empty accumulator, length 0, SeekingHeader, nothing emitted, all else unchanged
(42_reassembler.md R173, decision D18, log entry 19); its effect is that of the reset input (70_reset_and_hazards.md R231); and the ports then
show `EV_NONE`, `ERR_OK`, no packet and the initial state (10_state.md R28, R31). -/
def Obligations.ClearIsReset : Prop :=
  (∀ s : State, exec .rsClear s = .next { s with
    rsm := { rsState := .seekingHeader, rsExpected := 0, acc := [] }
    out := { enc := none, dec := none, rs := [] } }) ∧
  (∀ (s : State) (valid valid' : Bool) (b b' : Byte) (rest : List Transaction),
    step { s with inputs := .rsm false true valid b :: rest } =
      step { s with inputs := .rsm true false valid' b' :: rest }) ∧
  ∀ s t : State, exec .rsClear s = .next t →
    t.rsEv = 0 ∧ t.rsErr = 0 ∧ t.rsPktValid = false ∧ t.rsPkt = none ∧
    t.stState = 0 ∧ t.stExpected = 0 ∧ t.stCount = 0

/-! ## Frames on the stream -/

/-- Split delivery (42_reassembler.md R174): a frame that ENCODE produced, pushed byte by byte into the initial reassembler,
gives no packet before the last byte and exactly its own packet at the last; the reassembler is then initial again. The name
of the packet's type is decision D3 (log entry 9). -/
def Obligations.SplitDelivery : Prop :=
  ∀ (payload : List Byte) (flag ptype cmd : Byte) (s s' : State),
    payload.length ≤ 1014 → ptype = 0 ∨ ptype = 1 → s'.rsm = Rsm.reset →
    ∃ t frame u outs, exec (.encode payload flag ptype cmd) s = .next t ∧ t.encFrame = some frame ∧
      runOps (frame.map Instr.rsPush) s' =
        .next (u, outs ++ [{ ev := .packet, err := none, pkt := some (plainPacket payload flag ptype cmd) }]) ∧
      outs.length = frame.length - 1 ∧ packetsOf outs = [] ∧ u.rsm = Rsm.reset ∧
      u.delivered = s'.delivered ++ [plainPacket payload flag ptype cmd]

/-- Resynchronization (42_reassembler.md R175, with decision D29's reading of "valid_frame"): seven FF bytes, a frame, any
byte, a second frame, in any chunks, yield exactly the two packets in order. The type names are decision D3 (log entry 9). -/
def Obligations.ResynchronizationYieldsBothFrames : Prop :=
  ∀ (f f' : FrameFields) (g : Byte) (chunks : List (List Byte)) (s : State),
    f.Valid → f'.Valid → s.rsm = Rsm.reset →
    chunks.flatten = List.replicate 7 0xFF ++ f.bytes ++ [g] ++ f'.bytes →
    ∃ t outs, runOps (chunks.map Instr.rsFeed) s = .next (t, outs) ∧
      packetsOf outs = [f.delivery, f'.delivery] ∧ t.delivered = s.delivered ++ [f.delivery, f'.delivery] ∧
      t.rsm = Rsm.reset

/-- Frames sent back to back are delivered in stream order, each exactly once (20_memory.md R57 item 2, R63). Which frames are
valid is decision D29's reading, the type names decision D3 (log entry 9). -/
def Obligations.BackToBackFramesInOrder : Prop :=
  ∀ (fs : List FrameFields) (s : State), (∀ f ∈ fs, f.Valid) → s.rsm = Rsm.reset →
    ∃ t, exec (.rsFeed (fs.map FrameFields.bytes).flatten) s = .next t ∧ t.rsm = Rsm.reset ∧
      packetsOf t.out.rs = fs.map FrameFields.delivery ∧
      t.delivered = s.delivered ++ fs.map FrameFields.delivery

/-- Noise before a frame is rejected whenever no candidate header that starts in it passes the header check: the condition of
42_reassembler.md R176 with the candidates that reach into the frame counted in (log entry 23). That a recovered frame with a
payload_type above 1 is dropped is decision D4 (PTYPE_STRICT, log entry 10), the packet's type name D3 (log entry 9). -/
def Obligations.NoiseWithoutFalseHeaderIsRejected : Prop :=
  ∀ (g payload : List Byte) (flag ptype cmd : Byte) (s : State), payload.length ≤ 1014 → s.rsm = Rsm.reset →
    NoFalseHeader g.length (g ++ plainFrame payload flag ptype cmd) →
    NoiseThenFrameRecovers g payload flag ptype cmd s

/-- At most four bytes of noise, any run of FF and any run of 00 before a frame are rejected (42_reassembler.md R176; for any
noise the number is four, log entry 23). That a recovered frame with a payload_type above 1 is dropped is decision D4
(PTYPE_STRICT, log entry 10), the packet's type name D3 (log entry 9). -/
def Obligations.ShortNoiseAndRunsAreRejected : Prop :=
  ∀ (g payload : List Byte) (flag ptype cmd : Byte) (s : State), payload.length ≤ 1014 → s.rsm = Rsm.reset →
    (g.length ≤ 4 ∨ g = List.replicate g.length 0xFF ∨ g = List.replicate g.length 0) →
    NoiseThenFrameRecovers g payload flag ptype cmd s

/-- Which candidate headers that start in noise before a frame pass the header check, the corrected form of the two cases of
42_reassembler.md R176 (log entry 23): none with at most 4 noise bytes left; with 5 or 6 left exactly those whose examined
bits, of noise and frame together, are as 30_encoding.md R94 says; with 7 or more left exactly those that R176 gives, by the
noise alone. That bits 7:1 of byte 6 and byte 7 are not examined is decision D2 (log entry 8). -/
def Obligations.CandidateHeadersInNoise : Prop :=
  ∀ (g payload stream : List Byte) (flag ptype cmd : Byte) (p : Nat), payload.length ≤ 1014 → p < g.length →
    stream = g ++ plainFrame payload flag ptype cmd →
    (g.length - p ≤ 4 → lenValid (frameLen (stream.drop p)) = false) ∧
    (5 ≤ g.length - p → g.length - p ≤ 6 →
      (lenValid (frameLen (stream.drop p)) = true ↔
        stream.getD (p + 2) 0 = 0 ∧ stream.getD (p + 3) 0 = 0 ∧ stream.getD (p + 4) 0 = 0 ∧ stream.getD (p + 5) 0 = 0 ∧
        (stream.getD (p + 6) 0).toNat % 2 = 0 ∧ (stream.getD (p + 1) 0).toNat < 128 ∧
        8 ≤ (stream.getD (p + 1) 0).toNat * 16 + (stream.getD p 0).toNat / 16 ∧
        (stream.getD (p + 1) 0).toNat * 16 + (stream.getD p 0).toNat / 16 ≤ 1024)) ∧
    (7 ≤ g.length - p →
      (lenValid (frameLen (stream.drop p)) = true ↔
        g.getD (p + 2) 0 = 0 ∧ g.getD (p + 3) 0 = 0 ∧ g.getD (p + 4) 0 = 0 ∧ g.getD (p + 5) 0 = 0 ∧
        (g.getD (p + 6) 0).toNat % 2 = 0 ∧ (g.getD (p + 1) 0).toNat < 128 ∧
        8 ≤ (g.getD (p + 1) 0).toNat * 16 + (g.getD p 0).toNat / 16 ∧
        (g.getD (p + 1) 0).toNat * 16 + (g.getD p 0).toNat / 16 ≤ 1024))

/-- False sync (70_reset_and_hazards.md R243; the last sentence of 42_reassembler.md R176): the first candidate header of any
stream that passes the check is taken for a header, whoever meant it as one. The bytes before it cost one resynchronization
each; its eighth byte starts a body, or, where it announces 8 bytes, is dropped as a malformed frame (decision D13, log entry
16). Ignored reserved bits are decision D2 (log entry 8). -/
def Obligations.FirstValidCandidateIsTaken : Prop :=
  ∀ (stream : List Byte) (p : Nat) (s : State), s.rsm = Rsm.reset → p + 8 ≤ stream.length → NoFalseHeader p stream →
    (9 ≤ frameLen (stream.drop p) → frameLen (stream.drop p) ≤ 1024 →
      exec (.rsFeed (stream.take (p + 8))) s = .next { s with
        rsm :=
          { rsState := .readingBody
            rsExpected := BitVec.ofNat 11 (frameLen (stream.drop p))
            acc := (stream.drop p).take 8 }
        out :=
          { enc := none, dec := none
            rs := List.replicate 7 RsOut.idle ++ List.replicate p { ev := .resync, err := none, pkt := none } ++
              [{ ev := .header, err := none, pkt := none }] } }) ∧
    (frameLen (stream.drop p) = 8 →
      exec (.rsFeed (stream.take (p + 8))) s = .next { s with
        out :=
          { enc := none, dec := none
            rs := List.replicate 7 RsOut.idle ++ List.replicate p { ev := .resync, err := none, pkt := none } ++
              [{ ev := .drop, err := some .malformedFrame, pkt := none }] } })

/-- The clause "any noise of at most 6 bytes" of 42_reassembler.md R176, word for word. It is expected to FAIL: a candidate
header does not show the reserved bits of byte 6 nor byte 7 (R88), so five or six noise bytes can make a header that hides
the frame's first bytes (log entry 23). The model follows R163 and R167, which define the behaviour, and
R243, which 70_reset_and_hazards.md R240 says a model must reproduce exactly.
What the clause says of the recovered frame would rest on D3 and D4 (log entries 9, 10). -/
def Obligations.NoiseOfSixBytesIsRejected : Prop :=
  ∀ (g payload : List Byte) (flag ptype cmd : Byte) (s : State), payload.length ≤ 1014 → s.rsm = Rsm.reset →
    g.length ≤ 6 → NoiseThenFrameRecovers g payload flag ptype cmd s

/-- A frame whose header is valid is consumed whole, exactly its own bytes, whether DECODE accepts it or not, and the next
frame finds the reassembler initial (42_reassembler.md R166, 60_exceptions.md R211). That a frame of 8 bytes is dropped with its
last byte is decision D13 (42_reassembler.md R165, log entry 16: it would be false of hardware that checks only when the next
byte arrives), that reserved bits do not matter decision D2 (30_encoding.md R88, log entry 8), that a byte 8
above 1 is an error decision D4 (PTYPE_STRICT, log entry 10). -/
def Obligations.WholeFrameIsConsumed : Prop :=
  ∀ (frame : List Byte) (s : State), s.rsm = Rsm.reset → frameLen frame = frame.length →
    8 ≤ frame.length → frame.length ≤ 1024 →
    ∃ outs,
      (∀ d, decodeFrame frame = .packet d →
        exec (.rsFeed frame) s = .next { s with
          out := { enc := none, dec := none, rs := outs ++ [{ ev := .packet, err := none, pkt := some d }] }
          delivered := s.delivered ++ [d] }) ∧
      (∀ e, decodeFrame frame = .error e → e = .malformedFrame ∧
        exec (.rsFeed frame) s = .next { s with
          out := { enc := none, dec := none, rs := outs ++ [{ ev := .drop, err := some e, pkt := none }] } }) ∧
      outs.length = frame.length - 1 ∧ packetsOf outs = [] ∧ ∀ o ∈ outs, o.ev = .none ∨ o.ev = .header

/-- A torn frame takes whatever follows as its body (70_reset_and_hazards.md R242): from any ReadingBody state, as many bytes as
are missing, whatever they are, end the body, and the reassembler is back in its initial state. What DECODE answers is left to decodeFrame. -/
def Obligations.TornFrameSwallowsWhatFollows : Prop :=
  ∀ (s : State) (xs : List Byte), s.Inv → s.rsm.rsState = .readingBody →
    xs.length = s.rsm.rsExpected.toNat - s.rsm.acc.length →
    ∃ t, exec (.rsFeed xs) s = .next t ∧ t.rsm = Rsm.reset ∧
      packetsOf t.out.rs =
        (match decodeFrame (s.rsm.acc ++ xs) with
          | .packet d => [d]
          | .error _ => [])

/-- A parked body (42_reassembler.md R179, 70_reset_and_hazards.md R241): fewer bytes than are missing are stored silently
and the machine stays in ReadingBody; a codec operation does not move it either. -/
def Obligations.ParkedBodyStaysParked : Prop :=
  ∀ s : State, s.Inv → s.rsm.rsState = .readingBody →
    (∀ xs : List Byte, xs.length < s.rsm.rsExpected.toNat - s.rsm.acc.length →
      exec (.rsFeed xs) s = .next { s with
        rsm := { s.rsm with acc := s.rsm.acc ++ xs }
        out :=
          { enc := none, dec := none, rs := List.replicate xs.length { ev := .none, err := none, pkt := none } } }) ∧
    ∀ (i : Instr) (t : State), i.port ≠ .rsm → exec i s = .next t → t.rsm = s.rsm

/-! ## The wire patterns (log entry 4) -/

/-- A wire pattern acts as its bytes, written out by 30_encoding.md R82 and R80, fed to the reassembler, in every state: header
words and frames with any reserved bits; a frame with reserved bits zero as the frame that ENCODE produces for its fields. -/
def Obligations.WirePatternsAreTheirBytes : Prop :=
  ∀ (rsvd : BitVec 15) (flag : BitVec 4) (s : State),
    (∀ len : BitVec 45, exec (.hdr rsvd len flag) s =
      exec (.rsFeed
        [(len.extractLsb' 0 4 ++ flag : BitVec (4 + 4)), len.extractLsb' 4 8, len.extractLsb' 12 8, len.extractLsb' 20 8,
          len.extractLsb' 28 8, len.extractLsb' 36 8, (rsvd.extractLsb' 0 7 ++ len.extractLsb' 44 1 : BitVec (7 + 1)),
          rsvd.extractLsb' 7 8]) s) ∧
    (∀ l : BitVec 11, exec (.hdrTx l flag) s =
      exec (.rsFeed [(l.extractLsb' 0 4 ++ flag : BitVec (4 + 4)), (l.extractLsb' 4 7).setWidth 8, 0, 0, 0, 0, 0, 0]) s) ∧
    (∀ (len : BitVec 45) (cmd : Byte) (payload header : List Byte), len.toNat = 10 + payload.length →
      header =
        [(len.extractLsb' 0 4 ++ flag : BitVec (4 + 4)), len.extractLsb' 4 8, len.extractLsb' 12 8, len.extractLsb' 20 8,
          len.extractLsb' 28 8, len.extractLsb' 36 8, (rsvd.extractLsb' 0 7 ++ len.extractLsb' 44 1 : BitVec (7 + 1)),
          rsvd.extractLsb' 7 8] →
      exec (.frameNone rsvd flag cmd payload) s = exec (.rsFeed (header ++ 0 :: cmd :: payload)) s ∧
      exec (.frameString rsvd flag cmd payload) s = exec (.rsFeed (header ++ 1 :: cmd :: payload)) s) ∧
    ∀ (cmd : Byte) (payload : List Byte), payload.length ≤ 1014 →
      exec (.frameNone 0 flag cmd payload) s = exec (.rsFeed (plainFrame payload (flag.setWidth 8) 0 cmd)) s ∧
      exec (.frameString 0 flag cmd payload) s = exec (.rsFeed (plainFrame payload (flag.setWidth 8) 1 cmd)) s

/-- HDR into the initial reassembler (30_encoding.md R81, R88, R92; 42_reassembler.md R163, R165): only total_length decides;
outside 8..1024 one byte is discarded, 8 is a whole malformed frame, 9 to 1024 start a body. Ignored reserved bits are
decision D2 (log entry 8), bit 48 is D1 (log entry 7), length 8 is D13 (log entry 16). -/
def Obligations.HeaderWordArrives : Prop :=
  ∀ (rsvd : BitVec 15) (len : BitVec 45) (flag : BitVec 4) (s : State), s.rsm = Rsm.reset →
    (len.toNat < 8 ∨ 1024 < len.toNat →
      exec (.hdr rsvd len flag) s = .next { s with
        rsm := { rsState := .seekingHeader, rsExpected := 0, acc := (bytesLe64 (hdrWord rsvd len flag)).drop 1 }
        out :=
          { enc := none, dec := none
            rs := List.replicate 7 RsOut.idle ++ [{ ev := .resync, err := none, pkt := none }] } }) ∧
    (len.toNat = 8 →
      exec (.hdr rsvd len flag) s = .next { s with
        out :=
          { enc := none, dec := none
            rs := List.replicate 7 RsOut.idle ++ [{ ev := .drop, err := some .malformedFrame, pkt := none }] } }) ∧
    (9 ≤ len.toNat → len.toNat ≤ 1024 →
      exec (.hdr rsvd len flag) s = .next { s with
        rsm :=
          { rsState := .readingBody, rsExpected := len.setWidth 11, acc := bytesLe64 (hdrWord rsvd len flag) }
        out :=
          { enc := none, dec := none
            rs := List.replicate 7 RsOut.idle ++ [{ ev := .header, err := none, pkt := none }] } })

/-- A header that claims total_length 4, with any flag and any reserved bits, is never taken for a body: one byte is discarded
and the machine goes on seeking (42_reassembler.md R177); and it discards byte by byte until the valid header that follows is
found: the eight bytes cost eight resynchronizations and the frame behind them is extracted whole. That the reserved bits do
not matter is decision D2 (log entry 8); what becomes of the frame rests on D3 and D4 (PTYPE_STRICT; log
entries 9, 10). -/
def Obligations.HeaderClaimingFourIsNoise : Prop :=
  ∀ (rsvd : BitVec 15) (flag : BitVec 4) (header : List Byte) (s : State), s.rsm = Rsm.reset →
    header = [BitVec.ofNat 8 (0x40 + flag.toNat), 0, 0, 0, 0, 0, (rsvd.extractLsb' 0 7 ++ (0 : BitVec 1) : BitVec (7 + 1)),
      rsvd.extractLsb' 7 8] →
    exec (.rsFeed header) s = .next { s with
      rsm := { rsState := .seekingHeader, rsExpected := 0, acc := header.drop 1 }
      out :=
        { enc := none, dec := none
          rs := List.replicate 7 RsOut.idle ++ [{ ev := .resync, err := none, pkt := none }] } } ∧
    ∀ (payload : List Byte) (flag' ptype cmd : Byte), payload.length ≤ 1014 →
      NoiseThenFrameRecovers header payload flag' ptype cmd s

/-- HDR.TX, a header that ENCODE can write, is always accepted by the initial reassembler (30_encoding.md R83, R87, R92). -/
def Obligations.TransmittedHeaderIsAccepted : Prop :=
  ∀ (len : BitVec 11) (flag : BitVec 4) (s : State), s.rsm = Rsm.reset → 10 ≤ len.toNat → len.toNat ≤ 1024 →
    exec (.hdrTx len flag) s = .next { s with
      rsm :=
        { rsState := .readingBody
          rsExpected := len
          acc := [BitVec.ofNat 8 (len.toNat % 16 * 16 + flag.toNat), BitVec.ofNat 8 (len.toNat / 16), 0, 0, 0, 0, 0, 0] }
      out :=
        { enc := none, dec := none
          rs := List.replicate 7 RsOut.idle ++ [{ ev := .header, err := none, pkt := none }] } }

/-- FRAME.NONE and FRAME.STRING into the initial reassembler (30_encoding.md R101, R86, R88; names by decision D3): whatever
the flag and the reserved bits, one packet of the class's type with the last byte, and the reassembler initial again. That frames with reserved bits set are
delivered is decision D2 (log entry 8, unsafe for just this; 93_implementation_defined.md U3). -/
def Obligations.FrameClassesAreDelivered : Prop :=
  ∀ (rsvd : BitVec 15) (flag : BitVec 4) (cmd : Byte) (payload : List Byte) (s : State),
    payload.length ≤ 1014 → s.rsm = Rsm.reset →
    (∀ d : Delivery,
      d = { packet := { userField := cmd, payload := payload, payloadType := .none }, flag := flag } →
      exec (.frameNone rsvd flag cmd payload) s = .next { s with
        out :=
          { enc := none, dec := none
            rs := List.replicate 7 RsOut.idle ++ [{ ev := .header, err := none, pkt := none }] ++
              List.replicate (payload.length + 1) RsOut.idle ++ [{ ev := .packet, err := none, pkt := some d }] }
        delivered := s.delivered ++ [d] }) ∧
    ∀ d : Delivery,
      d = { packet := { userField := cmd, payload := payload, payloadType := .string }, flag := flag } →
      exec (.frameString rsvd flag cmd payload) s = .next { s with
        out :=
          { enc := none, dec := none
            rs := List.replicate 7 RsOut.idle ++ [{ ev := .header, err := none, pkt := none }] ++
              List.replicate (payload.length + 1) RsOut.idle ++ [{ ev := .packet, err := none, pkt := some d }] }
        delivered := s.delivered ++ [d] }
end

