-- ==== Sys2Proof/Laws/Bytes.lean ====
section
/-! SUPPORT. Byte order and header fields: the little-endian round trips and the fields of a packed word. -/

namespace Sys2Proof

/-! ## The relations between the parameters (00_scope.md R8) -/

theorem headerBits_eq : Config.headerBits = 8 * Config.headerBytes := rfl
theorem headerFields_fill : Config.flagW + Config.lenW + Config.rsvdW = Config.headerBits := rfl
theorem headerFields_adjacent :
    Config.flagLo = 0 ∧ Config.lenLo = Config.flagLo + Config.flagW ∧ Config.rsvdLo = Config.lenLo + Config.lenW :=
  ⟨rfl, rfl, rfl⟩
theorem minTotalLen_eq : Config.minTotalLen = Config.headerBytes := rfl
theorem minFrame_eq : Config.minFrame = Config.headerBytes + Config.metaBytes ∧ Config.minFrame = 10 := ⟨rfl, rfl⟩
theorem maxPayload_eq : Config.maxPayload = Config.maxTotalLen - Config.minFrame ∧ Config.maxPayload = 1014 := ⟨rfl, rfl⟩
theorem accCap_eq : Config.accCap = Config.maxTotalLen := rfl
theorem maxTotalLen_fits : Config.maxTotalLen < 2 ^ Config.lenW ∧ Config.maxTotalLen < 2 ^ Config.portLenW := by decide

/-! ## Byte order -/

@[simp] theorem leNat_nil : leNat [] = 0 := rfl
@[simp] theorem leNat_cons (b : Byte) (bs : List Byte) : leNat (b :: bs) = b.toNat + 256 * leNat bs := rfl

@[simp] theorem bytesLE_length (n w : Nat) : (bytesLE n w).length = n := by
  induction n generalizing w with
  | zero => rfl
  | succ n ih => simp [bytesLE, ih]

@[simp] theorem bytesLe64_length (w : HeaderWord) : (bytesLe64 w).length = 8 := bytesLE_length _ _

theorem leNat_bytesLE (n w : Nat) : leNat (bytesLE n w) = w % 256 ^ n := by
  induction n generalizing w with
  | zero => simp [bytesLE, Nat.mod_one]
  | succ n ih =>
    have h : 256 ^ (n + 1) = 256 * 256 ^ n := pow_succ' 256 n
    have h8 : (BitVec.ofNat 8 w).toNat = w % 256 := BitVec.toNat_ofNat w 8
    rw [bytesLE, leNat_cons, ih, h8, h, Nat.mod_mul]

theorem bytesLE_leNat (bs : List Byte) : bytesLE bs.length (leNat bs) = bs := by
  induction bs with
  | nil => rfl
  | cons b bs ih =>
    have hb := b.isLt
    have h1 : BitVec.ofNat 8 (b.toNat + 256 * leNat bs) = b := by
      apply BitVec.eq_of_toNat_eq; simp only [BitVec.toNat_ofNat]; omega
    have h2 : (b.toNat + 256 * leNat bs) / 256 = leNat bs := by omega
    simp only [List.length_cons, bytesLE, leNat_cons, h1, h2, ih]

theorem leNat_lt (bs : List Byte) : leNat bs < 256 ^ bs.length := by
  induction bs with
  | nil => simp
  | cons b bs ih =>
    have hb := b.isLt
    simp only [leNat_cons, List.length_cons, pow_succ']
    omega

theorem leNat_append (xs ys : List Byte) : leNat (xs ++ ys) = leNat xs + 256 ^ xs.length * leNat ys := by
  induction xs with
  | nil => simp
  | cons x xs ih => simp only [List.cons_append, leNat_cons, ih, List.length_cons, pow_succ']; ring

/-! The widths as numbers, so that arithmetic need not look through the parameters. -/

theorem headerWord_lt (w : HeaderWord) : w.toNat < 2 ^ 64 := w.isLt

theorem le64_toNat (h : List Byte) : (le64 h).toNat = leNat h % 2 ^ 64 := BitVec.toNat_ofNat _ _

theorem bytesLe64_eq (w : HeaderWord) : bytesLe64 w = bytesLE 8 w.toNat := rfl

theorem frameLen_eq (frame : List Byte) : frameLen frame = (hdrLen (le64 (frame.take 8))).toNat := rfl

theorem hdrPack_def (tl : Nat) (f : Byte) :
    hdrPack tl f = bytesLe64 (BitVec.ofNat 64 ((tl <<< 4) ||| (f.toNat &&& 0xF))) := rfl

@[simp] theorem le64_bytesLe64 (w : HeaderWord) : le64 (bytesLe64 w) = w := by
  have h := headerWord_lt w
  apply BitVec.eq_of_toNat_eq
  rw [le64_toNat, bytesLe64_eq, leNat_bytesLE]
  omega

theorem bytesLe64_le64 (h : List Byte) (h8 : h.length = 8) : bytesLe64 (le64 h) = h := by
  have hlt : leNat h < 2 ^ 64 := by have := leNat_lt h; rw [h8] at this; simpa using this
  rw [bytesLe64_eq, le64_toNat, Nat.mod_eq_of_lt hlt, ← h8, bytesLE_leNat]

theorem hdrLen_toNat (w : HeaderWord) : (hdrLen w).toNat = w.toNat / 16 % 2 ^ 45 := by
  simp [hdrLen, BitVec.extractLsb'_toNat, Nat.shiftRight_eq_div_pow]

theorem hdrFlag_toNat (w : HeaderWord) : (hdrFlag w).toNat = w.toNat % 16 := by
  simp [hdrFlag, BitVec.extractLsb'_toNat]

theorem hdrRsvd_toNat (w : HeaderWord) : (hdrRsvd w).toNat = w.toNat / 2 ^ 49 := by
  have h := headerWord_lt w
  have he : (hdrRsvd w).toNat = w.toNat / 2 ^ 49 % 2 ^ 15 := by
    rw [← Nat.shiftRight_eq_div_pow]; exact BitVec.extractLsb'_toNat _ _ _
  omega

theorem hdrWord_toNat (rsvd : BitVec 15) (len : BitVec 45) (flag : BitVec 4) :
    (hdrWord rsvd len flag).toNat = rsvd.toNat * 2 ^ 49 + len.toNat * 16 + flag.toNat := by
  have h1 := flag.isLt
  have h2 := len.isLt
  simp only [hdrWord, BitVec.toNat_append]
  rw [← Nat.shiftLeft_add_eq_or_of_lt h1, ← Nat.shiftLeft_add_eq_or_of_lt h2]
  simp only [Nat.shiftLeft_eq]
  ring

@[simp] theorem hdrLen_hdrWord (rsvd : BitVec 15) (len : BitVec 45) (flag : BitVec 4) :
    hdrLen (hdrWord rsvd len flag) = len := by
  have h1 := flag.isLt
  have h2 := len.isLt
  apply BitVec.eq_of_toNat_eq
  rw [hdrLen_toNat, hdrWord_toNat]
  omega

@[simp] theorem hdrFlag_hdrWord (rsvd : BitVec 15) (len : BitVec 45) (flag : BitVec 4) :
    hdrFlag (hdrWord rsvd len flag) = flag := by
  have h1 := flag.isLt
  apply BitVec.eq_of_toNat_eq
  rw [hdrFlag_toNat, hdrWord_toNat]
  omega

@[simp] theorem hdrRsvd_hdrWord (rsvd : BitVec 15) (len : BitVec 45) (flag : BitVec 4) :
    hdrRsvd (hdrWord rsvd len flag) = rsvd := by
  have h1 := flag.isLt
  have h2 := len.isLt
  apply BitVec.eq_of_toNat_eq
  rw [hdrRsvd_toNat, hdrWord_toNat]
  omega

/-- A word is its three fields. -/
theorem hdrWord_fields (w : HeaderWord) : hdrWord (hdrRsvd w) (hdrLen w) (hdrFlag w) = w := by
  have h := w.isLt
  apply BitVec.eq_of_toNat_eq
  rw [hdrWord_toNat, hdrRsvd_toNat, hdrLen_toNat, hdrFlag_toNat]
  omega

/-- The packing expression of 30_encoding.md R90 is the word with those fields and reserved bits zero. -/
theorem hdrPack_eq (tl : Nat) (f : Byte) (h : tl < 2 ^ 45) :
    hdrPack tl f = bytesLe64 (hdrWord 0 (BitVec.ofNat 45 tl) (f.setWidth 4)) := by
  have hmask : f.toNat &&& 0xF = f.toNat % 16 := Nat.and_two_pow_sub_one_eq_mod f.toNat 4
  rw [hdrPack_def]
  congr 1
  apply BitVec.eq_of_toNat_eq
  rw [hdrWord_toNat, hmask, ← Nat.shiftLeft_add_eq_or_of_lt (i := 4) (by omega : f.toNat % 16 < 2 ^ 4)]
  have h0 : (0 : BitVec 15).toNat = 0 := rfl
  have hl : (BitVec.ofNat 45 tl).toNat = tl := by rw [BitVec.toNat_ofNat, Nat.mod_eq_of_lt h]
  rw [h0, hl, BitVec.toNat_ofNat, BitVec.toNat_setWidth, Nat.shiftLeft_eq]
  omega

/-- The header of a frame is the word it was built from, whatever follows. -/
theorem frameBytes_take (rsvd : BitVec 15) (flag : BitVec 4) (ptype cmd : Byte) (payload : List Byte) :
    (frameBytes rsvd flag ptype cmd payload).take 8 =
      bytesLe64 (hdrWord rsvd (BitVec.ofNat 45 (10 + payload.length)) flag) := by
  simp [frameBytes]

theorem frameBytes_drop (rsvd : BitVec 15) (flag : BitVec 4) (ptype cmd : Byte) (payload : List Byte) :
    (frameBytes rsvd flag ptype cmd payload).drop 8 = ptype :: cmd :: payload := by
  simp [frameBytes]

@[simp] theorem frameBytes_length (rsvd : BitVec 15) (flag : BitVec 4) (ptype cmd : Byte) (payload : List Byte) :
    (frameBytes rsvd flag ptype cmd payload).length = 10 + payload.length := by
  simp [frameBytes]; omega

/-- A frame's total_length is its number of bytes, up to the width of the field. -/
theorem frameLen_frameBytes (rsvd : BitVec 15) (flag : BitVec 4) (ptype cmd : Byte) (payload : List Byte)
    (h : 10 + payload.length < 2 ^ 45) :
    frameLen (frameBytes rsvd flag ptype cmd payload) = 10 + payload.length := by
  rw [frameLen, frameBytes_take, le64_bytesLe64, hdrLen_hdrWord, BitVec.toNat_ofNat, Nat.mod_eq_of_lt h]

/-- Bytes after the eighth play no part in a header. -/
theorem frameLen_append (xs ys : List Byte) (h : 8 ≤ xs.length) : frameLen (xs ++ ys) = frameLen xs := by
  simp [frameLen, List.take_append_of_le_length h]

theorem frameLen_take (xs : List Byte) (n : Nat) (h : 8 ≤ n) : frameLen (xs.take n) = frameLen xs := by
  simp [frameLen, List.take_take, Nat.min_eq_left h]

/-- A frame is rebuilt from the fields of its header and the bytes behind it. -/
theorem frameBytes_fields {bytes payload : List Byte} {ptype cmd : Byte} (hd : bytes.drop 8 = ptype :: cmd :: payload)
    (hl : frameLen bytes = bytes.length) :
    frameBytes (hdrRsvd (le64 (bytes.take 8))) (hdrFlag (le64 (bytes.take 8))) ptype cmd payload = bytes := by
  have hlen := congrArg List.length hd
  simp only [List.length_drop, List.length_cons] at hlen
  have hf : BitVec.ofNat Config.lenW (Config.minFrame + payload.length) = hdrLen (le64 (bytes.take 8)) := by
    have hn : Config.minFrame + payload.length = bytes.length := by simp; omega
    rw [hn, ← hl, frameLen_eq]
    exact BitVec.eq_of_toNat_eq (by simp)
  unfold frameBytes
  rw [hf, hdrWord_fields, bytesLe64_le64 _ (by simp; omega), ← hd, List.take_append_drop]

/-! ## Wire patterns -/

/-- The frame pattern is found exactly when the length condition of 30_encoding.md R101 holds; byte 8 then decides. -/
theorem wireFrame_cases (bytes : List Byte) :
    (∃ ptype cmd payload, bytes.drop 8 = ptype :: cmd :: payload ∧ frameLen bytes = bytes.length ∧ bytes.length ≤ 1024 ∧
      wireFrame bytes = wireClass (le64 (bytes.take 8)) ptype cmd payload) ∨
    (¬ (10 ≤ bytes.length ∧ frameLen bytes = bytes.length ∧ bytes.length ≤ 1024) ∧ wireFrame bytes = none) := by
  unfold wireFrame
  rcases hd : bytes.drop Config.headerBytes with _ | ⟨ptype, _ | ⟨cmd, payload⟩⟩
  · have := congrArg List.length hd
    simp at this
    exact Or.inr ⟨by omega, rfl⟩
  · have := congrArg List.length hd
    simp at this
    exact Or.inr ⟨by omega, rfl⟩
  · simp only
    split
    · next h => exact Or.inl ⟨ptype, cmd, payload, rfl, h.1, h.2, rfl⟩
    · next h => exact Or.inr ⟨fun h' => h h'.2, rfl⟩

end Sys2Proof
end

