-- ==== Sys2Proof/Laws/Codec.lean ====
section
/-! SUPPORT. Everything the codec's two functions can do, for proofs to cite instead of unfolding them. -/

namespace Sys2Proof.Machine

/-- ENCODE produces the frame with reserved bits zero and the low four bits of the flag, or nothing but the one error. -/
theorem encodeFrame_cases (payload : List Byte) (flag ptype cmd : Byte) :
    (payload.length ≤ 1014 ∧
      encodeFrame payload flag ptype cmd = .frame (frameBytes 0 (flag.setWidth 4) ptype cmd payload)) ∨
    (1014 < payload.length ∧ encodeFrame payload flag ptype cmd = .error .payloadTooLarge) := by
  by_cases h : payload.length ≤ 1014
  · refine Or.inl ⟨h, ?_⟩
    have hn : ¬ 1024 < 8 + (1 + 1) + payload.length := by omega
    have hp := hdrPack_eq (10 + payload.length) flag (by omega)
    simp [encodeFrame, hn, hp, frameBytes]
  · refine Or.inr ⟨by omega, ?_⟩
    have hn : 1024 < 8 + (1 + 1) + payload.length := by omega
    simp [encodeFrame, hn]

/-- The frame with reserved bits zero, byte by byte (40_encoder.md R127). -/
theorem frameBytes_eq_plainFrame (payload : List Byte) (flag ptype cmd : Byte) (h : payload.length ≤ 1014) :
    frameBytes 0 (flag.setWidth 4) ptype cmd payload = plainFrame payload flag ptype cmd := by
  have hh : bytesLe64 (hdrWord 0 (BitVec.ofNat 45 (10 + payload.length)) (flag.setWidth 4)) =
      [BitVec.ofNat 8 ((10 + payload.length) % 16 * 16 + flag.toNat % 16), BitVec.ofNat 8 ((10 + payload.length) / 16),
        0, 0, 0, 0, 0, 0] := by
    have hf := flag.isLt
    rw [bytesLe64_eq, hdrWord_toNat]
    simp only [bytesLE, List.cons.injEq, and_true]
    refine ⟨?_, ?_, ?_, ?_, ?_, ?_, ?_, ?_⟩ <;> apply BitVec.eq_of_toNat_eq <;> simp <;> omega
  exact (congrArg (· ++ ptype :: cmd :: payload) hh).trans rfl

/-- DECODE's outcomes with the condition of each, in the order of the checks. -/
theorem decodeFrame_cases (frame : List Byte) :
    (frame.length < 8 ∧ decodeFrame frame = .error .frameTooShort) ∨
    (8 ≤ frame.length ∧ frame.length ≠ frameLen frame ∧ decodeFrame frame = .error .invalidLength) ∨
    (8 ≤ frame.length ∧ frame.length = frameLen frame ∧
      (frame.length < 10 ∨ 1 < (framePtypeByte frame).toNat) ∧ decodeFrame frame = .error .malformedFrame) ∨
    (10 ≤ frame.length ∧ frame.length = frameLen frame ∧ (framePtypeByte frame).toNat ≤ 1 ∧
      decodeFrame frame = .packet (packetOfFrame frame)) := by
  by_cases h8 : frame.length < 8
  · exact Or.inl ⟨h8, by simp [decodeFrame, h8]⟩
  refine Or.inr ?_
  by_cases hl : frame.length = frameLen frame
  swap
  · exact Or.inl ⟨by omega, hl, by simp [decodeFrame, h8, hl]⟩
  refine Or.inr ?_
  by_cases h10 : frame.length < 10
  · refine Or.inl ⟨by omega, hl, Or.inl h10, ?_⟩
    simp [decodeFrame, h8, ← hl, h10]
  by_cases ht : 1 < (framePtypeByte frame).toNat
  · refine Or.inl ⟨by omega, hl, Or.inr ht, ?_⟩
    simp [decodeFrame, h8, ← hl, ht]
  · refine Or.inr ⟨by omega, hl, by omega, ?_⟩
    simp [decodeFrame, h8, ← hl, h10, ht]

/-- Inside the reassembler only `MalformedFrame` can come out of DECODE (42_reassembler.md R169). -/
theorem decodeFrame_error_of_length {frame : List Byte} {e : ErrKind} (h8 : 8 ≤ frame.length)
    (hl : frame.length = frameLen frame) (he : decodeFrame frame = .error e) : e = .malformedFrame := by
  rcases decodeFrame_cases frame with ⟨h, _⟩ | ⟨_, h, _⟩ | ⟨_, _, _, h⟩ | ⟨_, _, _, h⟩
  · omega
  · exact absurd hl h
  · rw [h] at he
    exact (DecResult.error.inj he).symm
  · rw [h] at he
    cases he

end Sys2Proof.Machine
end

