-- ==== Sys2Proof/Laws/PerInstr.lean ====
section
/-! SUPPORT. One lemma for each row of the table: the family RunsOnItsPort. -/

/-- The transaction that presents an instruction drives the port of the sub-block 30_encoding.md R100 names for it. -/
def Sys2Proof.Laws.RunsOnItsPort.Statement (i : Sys2Proof.Instr) : Prop := (Sys2Proof.encode i).port = i.port

theorem Sys2Proof.Laws.RunsOnItsPort.encode (payload : List Sys2Proof.Byte) (flag ptype cmd : Sys2Proof.Byte) :
    Sys2Proof.Laws.RunsOnItsPort.Statement (Sys2Proof.Instr.encode payload flag ptype cmd) := rfl

theorem Sys2Proof.Laws.RunsOnItsPort.decode (frame : List Sys2Proof.Byte) :
    Sys2Proof.Laws.RunsOnItsPort.Statement (Sys2Proof.Instr.decode frame) := rfl

theorem Sys2Proof.Laws.RunsOnItsPort.rsPush (b : Sys2Proof.Byte) :
    Sys2Proof.Laws.RunsOnItsPort.Statement (Sys2Proof.Instr.rsPush b) := rfl

theorem Sys2Proof.Laws.RunsOnItsPort.rsFeed (chunk : List Sys2Proof.Byte) :
    Sys2Proof.Laws.RunsOnItsPort.Statement (Sys2Proof.Instr.rsFeed chunk) := rfl

theorem Sys2Proof.Laws.RunsOnItsPort.rsClear : Sys2Proof.Laws.RunsOnItsPort.Statement Sys2Proof.Instr.rsClear := rfl

theorem Sys2Proof.Laws.RunsOnItsPort.hdr (rsvd : BitVec 15) (len : BitVec 45) (flag : BitVec 4) :
    Sys2Proof.Laws.RunsOnItsPort.Statement (Sys2Proof.Instr.hdr rsvd len flag) := rfl

theorem Sys2Proof.Laws.RunsOnItsPort.hdrTx (len : BitVec 11) (flag : BitVec 4) :
    Sys2Proof.Laws.RunsOnItsPort.Statement (Sys2Proof.Instr.hdrTx len flag) := rfl

theorem Sys2Proof.Laws.RunsOnItsPort.frameNone (rsvd : BitVec 15) (flag : BitVec 4) (cmd : Sys2Proof.Byte)
    (payload : List Sys2Proof.Byte) :
    Sys2Proof.Laws.RunsOnItsPort.Statement (Sys2Proof.Instr.frameNone rsvd flag cmd payload) := rfl

theorem Sys2Proof.Laws.RunsOnItsPort.frameString (rsvd : BitVec 15) (flag : BitVec 4) (cmd : Sys2Proof.Byte)
    (payload : List Sys2Proof.Byte) :
    Sys2Proof.Laws.RunsOnItsPort.Statement (Sys2Proof.Instr.frameString rsvd flag cmd payload) := rfl
end

