-- ==== Sys2Proof/Laws/State.lean ====
section
/-! SUPPORT. One lemma for each field and each update of State, true by rfl, so that no proof unfolds a record update. -/

namespace Sys2Proof.Machine

@[simp] theorem goIdle_rsm (s : State) : (goIdle s).rsm = s.rsm := rfl
@[simp] theorem goIdle_out (s : State) : (goIdle s).out = Outputs.idle := rfl
@[simp] theorem goIdle_inputs (s : State) : (goIdle s).inputs = s.inputs := rfl
@[simp] theorem goIdle_outbound (s : State) : (goIdle s).outbound = s.outbound := rfl
@[simp] theorem goIdle_delivered (s : State) : (goIdle s).delivered = s.delivered := rfl

@[simp] theorem giveFrame_rsm (bytes : List Byte) (s : State) : (giveFrame bytes s).rsm = s.rsm := rfl
@[simp] theorem giveFrame_out (bytes : List Byte) (s : State) : (giveFrame bytes s).out = { Outputs.idle with enc := some (.frame bytes) } := rfl
@[simp] theorem giveFrame_inputs (bytes : List Byte) (s : State) : (giveFrame bytes s).inputs = s.inputs := rfl
@[simp] theorem giveFrame_outbound (bytes : List Byte) (s : State) : (giveFrame bytes s).outbound = s.outbound ++ bytes := rfl
@[simp] theorem giveFrame_delivered (bytes : List Byte) (s : State) : (giveFrame bytes s).delivered = s.delivered := rfl

@[simp] theorem givePacket_rsm (d : Delivery) (s : State) : (givePacket d s).rsm = s.rsm := rfl
@[simp] theorem givePacket_out (d : Delivery) (s : State) : (givePacket d s).out = { Outputs.idle with dec := some (.packet d) } := rfl
@[simp] theorem givePacket_inputs (d : Delivery) (s : State) : (givePacket d s).inputs = s.inputs := rfl
@[simp] theorem givePacket_outbound (d : Delivery) (s : State) : (givePacket d s).outbound = s.outbound := rfl
@[simp] theorem givePacket_delivered (d : Delivery) (s : State) : (givePacket d s).delivered = s.delivered := rfl

@[simp] theorem giveRsm_rsm (r : Rsm) (outs : List RsOut) (s : State) : (giveRsm r outs s).rsm = r := rfl
@[simp] theorem giveRsm_out (r : Rsm) (outs : List RsOut) (s : State) : (giveRsm r outs s).out = { Outputs.idle with rs := outs } := rfl
@[simp] theorem giveRsm_inputs (r : Rsm) (outs : List RsOut) (s : State) : (giveRsm r outs s).inputs = s.inputs := rfl
@[simp] theorem giveRsm_outbound (r : Rsm) (outs : List RsOut) (s : State) : (giveRsm r outs s).outbound = s.outbound := rfl
@[simp] theorem giveRsm_delivered (r : Rsm) (outs : List RsOut) (s : State) : (giveRsm r outs s).delivered = s.delivered ++ packetsOf outs := rfl

@[simp] theorem giveChunk_rsm (chunk : List Byte) (s : State) : (giveChunk chunk s).rsm = (feedBytes chunk s.rsm).1 := rfl
@[simp] theorem giveChunk_out (chunk : List Byte) (s : State) : (giveChunk chunk s).out = { Outputs.idle with rs := (feedBytes chunk s.rsm).2 } := rfl
@[simp] theorem giveChunk_inputs (chunk : List Byte) (s : State) : (giveChunk chunk s).inputs = s.inputs := rfl
@[simp] theorem giveChunk_outbound (chunk : List Byte) (s : State) : (giveChunk chunk s).outbound = s.outbound := rfl
@[simp] theorem giveChunk_delivered (chunk : List Byte) (s : State) : (giveChunk chunk s).delivered = s.delivered ++ packetsOf (feedBytes chunk s.rsm).2 := rfl

@[simp] theorem resetRsm_rsm (s : State) : (resetRsm s).rsm = Rsm.reset := rfl
@[simp] theorem resetRsm_out (s : State) : (resetRsm s).out = Outputs.idle := rfl
@[simp] theorem resetRsm_inputs (s : State) : (resetRsm s).inputs = s.inputs := rfl
@[simp] theorem resetRsm_outbound (s : State) : (resetRsm s).outbound = s.outbound := rfl
@[simp] theorem resetRsm_delivered (s : State) : (resetRsm s).delivered = s.delivered := rfl

@[simp] theorem present_rsm (x : Transaction) (s : State) : (present x s).rsm = s.rsm := rfl
@[simp] theorem present_out (x : Transaction) (s : State) : (present x s).out = s.out := rfl
@[simp] theorem present_inputs (x : Transaction) (s : State) : (present x s).inputs = s.inputs ++ [x] := rfl
@[simp] theorem present_outbound (x : Transaction) (s : State) : (present x s).outbound = s.outbound := rfl
@[simp] theorem present_delivered (x : Transaction) (s : State) : (present x s).delivered = s.delivered := rfl

@[simp] theorem raiseError_rsm (c : Caller) (e : ErrKind) (s : State) : (raiseError c e s).rsm = s.rsm := by
  cases c <;> rfl
@[simp] theorem raiseError_inputs (c : Caller) (e : ErrKind) (s : State) : (raiseError c e s).inputs = s.inputs := by
  cases c <;> rfl
@[simp] theorem raiseError_outbound (c : Caller) (e : ErrKind) (s : State) : (raiseError c e s).outbound = s.outbound := by
  cases c <;> rfl
@[simp] theorem raiseError_delivered (c : Caller) (e : ErrKind) (s : State) : (raiseError c e s).delivered = s.delivered := by
  cases c <;> rfl
@[simp] theorem raiseError_encode_out (e : ErrKind) (s : State) :
    (raiseError .encode e s).out = { Outputs.idle with enc := some (.error e) } := rfl
@[simp] theorem raiseError_decode_out (e : ErrKind) (s : State) :
    (raiseError .decode e s).out = { Outputs.idle with dec := some (.error e) } := rfl

@[simp] theorem accAppend_rsState (b : Byte) (r : Rsm) : (accAppend b r).rsState = r.rsState := rfl
@[simp] theorem accAppend_rsExpected (b : Byte) (r : Rsm) : (accAppend b r).rsExpected = r.rsExpected := rfl
@[simp] theorem accAppend_acc (b : Byte) (r : Rsm) : (accAppend b r).acc = r.acc ++ [b] := rfl
@[simp] theorem accDrop_rsState (n : Nat) (r : Rsm) : (accDrop n r).rsState = r.rsState := rfl
@[simp] theorem accDrop_rsExpected (n : Nat) (r : Rsm) : (accDrop n r).rsExpected = r.rsExpected := rfl
@[simp] theorem accDrop_acc (n : Nat) (r : Rsm) : (accDrop n r).acc = r.acc.drop n := rfl
@[simp] theorem accRead_front (n : Nat) (r : Rsm) : accRead 0 n r = r.acc.take n := rfl
@[simp] theorem accCount_eq (r : Rsm) : accCount r = r.acc.length := rfl

@[simp] theorem packetsOf_nil : packetsOf [] = [] := rfl
@[simp] theorem packetsOf_append (xs ys : List RsOut) : packetsOf (xs ++ ys) = packetsOf xs ++ packetsOf ys := by
  simp [packetsOf]

/-! ## The port views (10_state.md R33 to R38) -/

@[simp] theorem EncResult.err_frame (bytes : List Byte) : (EncResult.frame bytes).err = none := rfl
@[simp] theorem EncResult.err_error (e : ErrKind) : (EncResult.error e).err = some e := rfl
@[simp] theorem EncResult.bytes_frame (bytes : List Byte) : (EncResult.frame bytes).bytes = bytes := rfl
@[simp] theorem EncResult.bytes_error (e : ErrKind) : (EncResult.error e).bytes = [] := rfl
@[simp] theorem DecResult.err_packet (d : Delivery) : (DecResult.packet d).err = none := rfl
@[simp] theorem DecResult.err_error (e : ErrKind) : (DecResult.error e).err = some e := rfl
@[simp] theorem DecResult.delivery_packet (d : Delivery) : (DecResult.packet d).delivery = some d := rfl
@[simp] theorem DecResult.delivery_error (e : ErrKind) : (DecResult.error e).delivery = none := rfl
@[simp] theorem errCode_none : errCode none = 0 := rfl
@[simp] theorem errCode_some (e : ErrKind) : errCode (some e) = e.code := rfl
@[simp] theorem Outputs.lastRs_idle : Outputs.idle.lastRs = RsOut.idle := rfl
@[simp] theorem Outputs.lastRs_nil (e : Option EncResult) (d : Option DecResult) :
    ({ enc := e, dec := d, rs := [] } : Outputs).lastRs = RsOut.idle := rfl
@[simp] theorem Outputs.lastRs_concat (e : Option EncResult) (d : Option DecResult) (outs : List RsOut) (o : RsOut) :
    ({ enc := e, dec := d, rs := outs ++ [o] } : Outputs).lastRs = o := by
  simp [Outputs.lastRs]

/-! ## Runs under an environment -/

@[simp] theorem runEnv_zero (env : Environment) (s : State) : runEnv env 0 s = .next s := rfl

theorem runEnv_succ {env : Environment} {n : Nat} {s t : State} (h : runEnv env n s = .next t) :
    runEnv env (n + 1) s = step (present (env n) t) := by
  rw [runEnv, h]

/-- With nothing waiting, the presented transaction is the one that runs. -/
theorem step_present {t : Transaction} {s : State} (h : s.inputs = []) :
    step (present t s) = runSelected (decode t) s := by
  obtain ⟨rsm, out, inputs, outbound, delivered⟩ := s
  subst h
  rfl

theorem readBytes_succ (chunks : Nat → List Byte) (n : Nat) :
    readBytes chunks (n + 1) = readBytes chunks n ++ chunks n := by
  simp [readBytes, List.range_succ]

theorem giveChunk_eq_giveRsm (chunk : List Byte) (s : State) :
    giveChunk chunk s = giveRsm (feedBytes chunk s.rsm).1 (feedBytes chunk s.rsm).2 s := rfl

end Sys2Proof.Machine
end

