-- ==== Sys2Proof/Laws/Rsm.lean ====
section
/-! SUPPORT. What the reassembler's operations can do: the accumulator keeps its form, when the loop exits, and the outcome of
one RS.PUSH in each situation of 42_reassembler.md R170. -/

namespace Sys2Proof.Machine

/-! ## The accumulator keeps its form (10_state.md R23, R24 item 3) -/

theorem reset_memory_wf : Memory.wf State.reset.rsm.acc := by decide

theorem accAppend_wf (b : Byte) (r : Rsm) (h : r.acc.length < Config.accCap) : Memory.wf (accAppend b r).acc := by
  simp only [Memory.wf, accAppend_acc, List.length_append, List.length_singleton] at *
  omega

theorem accDrop_wf (n : Nat) (r : Rsm) (h : Memory.wf r.acc) : Memory.wf (accDrop n r).acc := by
  simp only [Memory.wf, accDrop_acc, List.length_drop] at *
  omega

theorem checkHeader_wf (r : Rsm) (o : RsOut) (h : Memory.wf r.acc) : Memory.wf (checkHeader r o).1.acc := by
  simp only [checkHeader]
  split
  · exact h
  · exact accDrop_wf 1 r h

theorem extractFrame_wf (r : Rsm) (o : RsOut) (h : Memory.wf r.acc) : Memory.wf (extractFrame r o).1.acc :=
  accDrop_wf _ r h

/-- Every action of the loop keeps the form. -/
theorem rsmAction_wf {r r' : Rsm} {o o' : RsOut} (ha : rsmAction r o = some (r', o')) (h : Memory.wf r.acc) :
    Memory.wf r'.acc := by
  unfold rsmAction at ha
  split at ha <;> split at ha <;> simp only [Option.some.injEq, reduceCtorEq] at ha
  · have hw := checkHeader_wf r o h
    rwa [ha] at hw
  · have hw := extractFrame_wf r o h
    rwa [ha] at hw

theorem rsmLoop_wf (rounds : Nat) (r : Rsm) (o : RsOut) (h : Memory.wf r.acc) :
    Memory.wf (rsmLoop rounds r o).1.acc := by
  induction rounds generalizing r o with
  | zero => exact h
  | succ rounds ih =>
    unfold rsmLoop
    split
    · exact h
    · next r' o' ha => exact ih r' o' (rsmAction_wf ha h)

/-- One RS.PUSH keeps the form wherever there is room for the byte. -/
theorem pushByte_wf (b : Byte) (r : Rsm) (h : r.acc.length < Config.accCap) : Memory.wf (pushByte b r).1.acc :=
  rsmLoop_wf _ _ _ (accAppend_wf b r h)

/-! ## The loop -/

/-- The loop has nothing to do (42_reassembler.md R165: the two exit conditions). -/
abbrev Rsm.Quiescent (r : Rsm) : Prop :=
  (r.rsState = .seekingHeader ∧ r.acc.length < 8) ∨ (r.rsState = .readingBody ∧ r.acc.length < r.rsExpected.toNat)

theorem rsmAction_eq_none_iff (r : Rsm) (o : RsOut) : rsmAction r o = none ↔ r.Quiescent := by
  unfold rsmAction Rsm.Quiescent
  cases hs : r.rsState <;> simp only <;> split <;> simp_all

theorem rsmLoop_quiescent {rounds : Nat} {r : Rsm} {o : RsOut} (h : r.Quiescent) : rsmLoop rounds r o = (r, o) := by
  cases rounds with
  | zero => rfl
  | succ rounds => rw [rsmLoop, (rsmAction_eq_none_iff r o).2 h]

theorem rsmLoop_action {rounds : Nat} {r : Rsm} {o : RsOut} {p : Rsm × RsOut} (h : rsmAction r o = some p) :
    rsmLoop (rounds + 1) r o = rsmLoop rounds p.1 p.2 := by
  rw [rsmLoop, h]

theorem rsmAction_seeking {r : Rsm} (o : RsOut) (hs : r.rsState = .seekingHeader) (hl : 8 ≤ r.acc.length) :
    rsmAction r o = some (checkHeader r o) := by
  simp [rsmAction, hs, Nat.not_lt.2 hl]

theorem rsmAction_reading {r : Rsm} (o : RsOut) (hs : r.rsState = .readingBody)
    (hl : r.rsExpected.toNat ≤ r.acc.length) : rsmAction r o = some (extractFrame r o) := by
  simp [rsmAction, hs, Nat.not_lt.2 hl]

theorem checkHeader_valid {r : Rsm} (o : RsOut) (hv : lenValid (frameLen r.acc) = true) :
    checkHeader r o =
      ({ r with rsExpected := BitVec.ofNat 11 (frameLen r.acc), rsState := .readingBody }, { o with ev := .header }) := by
  unfold frameLen at hv
  simp [checkHeader, frameLen, hv]

theorem checkHeader_invalid {r : Rsm} (o : RsOut) (hv : lenValid (frameLen r.acc) = false) :
    checkHeader r o = (accDrop 1 r, { o with ev := .resync }) := by
  unfold frameLen at hv
  simp [checkHeader, hv]

theorem lenValid_iff (tl : Nat) : lenValid tl = true ↔ 8 ≤ tl ∧ tl ≤ 1024 := by simp [lenValid]

/-- An accepted length fits `rs_expected`. -/
theorem rsExpected_toNat {tl : Nat} (hv : lenValid tl = true) : (BitVec.ofNat 11 tl).toNat = tl := by
  rw [lenValid_iff] at hv
  rw [BitVec.toNat_ofNat, Nat.mod_eq_of_lt (by omega)]

/-! ## One RS.PUSH -/

/-- A push in a state whose checks do not fire after the append only stores the byte. -/
theorem pushByte_store {b : Byte} {r : Rsm} (h : (accAppend b r).Quiescent) :
    pushByte b r = (accAppend b r, RsOut.idle) := rsmLoop_quiescent h

theorem pushByte_noise {b : Byte} {r : Rsm} (hs : r.rsState = .seekingHeader) (hl : r.acc.length = 7)
    (hv : lenValid (frameLen (r.acc ++ [b])) = false) :
    pushByte b r = (accDrop 1 (accAppend b r), { RsOut.idle with ev := .resync }) := by
  have ha := rsmAction_seeking (r := accAppend b r) RsOut.idle hs (by simp [hl])
  rw [checkHeader_invalid (r := accAppend b r) RsOut.idle hv] at ha
  exact (rsmLoop_action (rounds := 2 * (accAppend b r).acc.length + 2) ha).trans
    (rsmLoop_quiescent (Or.inl ⟨hs, by simp [hl]⟩))

theorem pushByte_header {b : Byte} {r : Rsm} (hs : r.rsState = .seekingHeader) (hl : r.acc.length = 7)
    (hv : lenValid (frameLen (r.acc ++ [b])) = true) (h9 : 9 ≤ frameLen (r.acc ++ [b])) :
    pushByte b r =
      ({ rsState := .readingBody, rsExpected := BitVec.ofNat 11 (frameLen (r.acc ++ [b])), acc := r.acc ++ [b] },
        { RsOut.idle with ev := .header }) := by
  have ha := rsmAction_seeking (r := accAppend b r) RsOut.idle hs (by simp [hl])
  rw [checkHeader_valid (r := accAppend b r) RsOut.idle hv] at ha
  refine (rsmLoop_action (rounds := 2 * (accAppend b r).acc.length + 2) ha).trans
    (rsmLoop_quiescent (Or.inr ⟨rfl, ?_⟩))
  change (r.acc ++ [b]).length < (BitVec.ofNat 11 (frameLen (r.acc ++ [b]))).toNat
  rw [rsExpected_toNat hv]
  simp [hl]
  omega

/-- Extraction with the last byte: the registers are the reset state's and the outputs are DECODE's. -/
theorem pushByte_extract {b : Byte} {r : Rsm} (hs : r.rsState = .readingBody)
    (hl : r.acc.length + 1 = r.rsExpected.toNat) :
    pushByte b r = (Rsm.reset, reportFrame (r.acc ++ [b]) RsOut.idle) := by
  have ha := rsmAction_reading (r := accAppend b r) RsOut.idle hs (by simp [← hl])
  have he : extractFrame (accAppend b r) RsOut.idle = (Rsm.reset, reportFrame (r.acc ++ [b]) RsOut.idle) := by
    have ht : (r.acc ++ [b]).take (r.acc.length + 1) = r.acc ++ [b] := List.take_of_length_le (by simp)
    simp [extractFrame, ← hl, Rsm.reset, ht]
  rw [he] at ha
  exact (rsmLoop_action (rounds := 2 * (accAppend b r).acc.length + 2) ha).trans
    (rsmLoop_quiescent (Or.inl ⟨rfl, by simp [Rsm.reset]⟩))

/-- A header that announces 8 bytes is a whole frame at once, and DECODE rejects it (42_reassembler.md R165). -/
theorem pushByte_eight {b : Byte} {r : Rsm} (hs : r.rsState = .seekingHeader) (hl : r.acc.length = 7)
    (h8 : frameLen (r.acc ++ [b]) = 8) :
    pushByte b r = (Rsm.reset, { RsOut.idle with ev := .drop, err := some .malformedFrame }) := by
  have hv : lenValid (frameLen (r.acc ++ [b])) = true := by rw [h8]; decide
  have ha := rsmAction_seeking (r := accAppend b r) RsOut.idle hs (by simp [hl])
  rw [checkHeader_valid (r := accAppend b r) RsOut.idle hv] at ha
  have ha2 := rsmAction_reading
    (r := { accAppend b r with rsExpected := BitVec.ofNat 11 (frameLen (accAppend b r).acc), rsState := .readingBody })
    { RsOut.idle with ev := .header } rfl (by simp [h8, hl])
  have he : extractFrame
      { accAppend b r with rsExpected := BitVec.ofNat 11 (frameLen (accAppend b r).acc), rsState := .readingBody }
      { RsOut.idle with ev := .header } =
      (Rsm.reset, { RsOut.idle with ev := .drop, err := some .malformedFrame }) := by
    have hd : decodeFrame (r.acc ++ [b]) = .error .malformedFrame := by simp [decodeFrame, hl, h8]
    have ht : (r.acc ++ [b]).take 8 = r.acc ++ [b] := List.take_of_length_le (by simp [hl])
    have hr : (r.acc ++ [b]).drop 8 = [] := List.drop_of_length_le (by simp [hl])
    simp [extractFrame, accAppend, h8, ht, hr, Rsm.reset, reportFrame, hd, swallow, RsOut.idle, accDrop]
  rw [he] at ha2
  exact (rsmLoop_action (rounds := 2 * (accAppend b r).acc.length + 2) ha).trans
    ((rsmLoop_action (rounds := 2 * (accAppend b r).acc.length + 1) ha2).trans
      (rsmLoop_quiescent (Or.inl ⟨rfl, by simp [Rsm.reset]⟩)))

/-! ## RS.FEED -/

@[simp] theorem feedBytes_nil (r : Rsm) : feedBytes [] r = (r, []) := rfl

theorem feedBytes_cons (b : Byte) (bs : List Byte) (r : Rsm) :
    feedBytes (b :: bs) r =
      ((feedBytes bs (pushByte b r).1).1, (pushByte b r).2 :: (feedBytes bs (pushByte b r).1).2) := rfl

/-- Feeding two pieces is feeding them one after the other. -/
theorem feedBytes_append (xs ys : List Byte) (r : Rsm) :
    feedBytes (xs ++ ys) r =
      ((feedBytes ys (feedBytes xs r).1).1, (feedBytes xs r).2 ++ (feedBytes ys (feedBytes xs r).1).2) := by
  induction xs generalizing r with
  | nil => rfl
  | cons x xs ih => simp only [List.cons_append, feedBytes_cons, ih]

@[simp] theorem feedBytes_length (xs : List Byte) (r : Rsm) : (feedBytes xs r).2.length = xs.length := by
  induction xs generalizing r with
  | nil => rfl
  | cons x xs ih => simp [feedBytes_cons, ih]

/-- Up to seven bytes in SeekingHeader are only stored. -/
theorem feedBytes_fill (xs acc : List Byte) (h : acc.length + xs.length ≤ 7) :
    feedBytes xs { rsState := .seekingHeader, rsExpected := 0, acc := acc } =
      ({ rsState := .seekingHeader, rsExpected := 0, acc := acc ++ xs }, List.replicate xs.length RsOut.idle) := by
  induction xs generalizing acc with
  | nil => simp
  | cons x xs ih =>
    simp only [List.length_cons] at h
    have hp : pushByte x { rsState := .seekingHeader, rsExpected := 0, acc := acc } =
        (accAppend x { rsState := .seekingHeader, rsExpected := 0, acc := acc }, RsOut.idle) :=
      pushByte_store (Or.inl ⟨rfl, by simp; omega⟩)
    have hx := ih (acc ++ [x]) (by simp; omega)
    rw [feedBytes_cons, hp]
    simp only [accAppend, hx]
    simp [List.replicate_succ]

/-- As long as no candidate passes the check, every byte after the seventh costs one discard, and the seven newest are held. -/
theorem feedBytes_noise (p : Nat) (stream : List Byte) (h : p + 7 ≤ stream.length) (hn : NoFalseHeader p stream) :
    feedBytes (stream.take (p + 7)) Rsm.reset =
      ({ rsState := .seekingHeader, rsExpected := 0, acc := (stream.drop p).take 7 },
        List.replicate 7 RsOut.idle ++ List.replicate p { ev := .resync, err := none, pkt := none }) := by
  induction p with
  | zero =>
    have hf := feedBytes_fill (stream.take 7) [] (by simp)
    simp only [Nat.zero_add, Rsm.reset]
    rw [hf]
    simp [show min 7 stream.length = 7 by omega]
  | succ p ih =>
    have hb : p + 7 < stream.length := by omega
    have hh := ih (by omega) fun q hq => hn q (by omega)
    have ht : stream.take (p + 1 + 7) = stream.take (p + 7) ++ [stream.getD (p + 7) 0] := by
      rw [show p + 1 + 7 = (p + 7) + 1 by omega, List.take_add_one]
      simp [List.getElem?_eq_getElem hb]
    have hd : (stream.drop p).take 7 ++ [stream.getD (p + 7) 0] = (stream.drop p).take 8 := by
      have h8 := List.take_add_one (l := stream.drop p) (i := 7)
      simp only [Nat.reduceAdd] at h8
      rw [h8]
      simp [List.getElem?_eq_getElem hb]
    have hv : lenValid (frameLen ((stream.drop p).take 7 ++ [stream.getD (p + 7) 0])) = false := by
      rw [hd, frameLen_take _ _ (by omega)]
      exact hn p (by omega)
    have hp := pushByte_noise (b := stream.getD (p + 7) 0)
      (r := { rsState := .seekingHeader, rsExpected := 0, acc := (stream.drop p).take 7 }) rfl (by simp; omega) hv
    have h7 : ((stream.drop p).take 8).drop 1 = (stream.drop (p + 1)).take 7 := by rw [List.drop_take, List.drop_drop]
    rw [ht, feedBytes_append, hh, feedBytes_cons, hp, feedBytes_nil]
    simp only [accDrop, accAppend, hd, h7]
    simp [List.replicate_succ', RsOut.idle]

end Sys2Proof.Machine
end

