-- ==== Sys2Proof/Tests/Slice0.lean ====
section
/-! SUPPORT. Tests from the spec's own vectors (95_test_vectors.md; the vector's name stands in the theorem's), the smoke test
of WellFormed, and a witness for the hypotheses of every statement that has any. -/

namespace Sys2Proof.Tests

open Sys2Proof.Machine

/-! ## Helpers -/

/-- The reset state with the given bytes in SeekingHeader. -/
def seeking (acc : List Byte) : State :=
  { State.reset with rsm := { rsState := .seekingHeader, rsExpected := 0, acc := acc } }

/-- The reset state with the given bytes in ReadingBody. -/
def reading (expected : BitVec 11) (acc : List Byte) : State :=
  { State.reset with rsm := { rsState := .readingBody, rsExpected := expected, acc := acc } }

/-- What a test looks at: the next state, if there is one. -/
def next? (o : Host.Outcome State Fault Refusal) : Option State :=
  match o with
  | .next s => some s
  | .fault _ => none
  | .refused _ => none

def rsmAfter (i : Instr) (s : State) : Option Rsm := (next? (exec i s)).map State.rsm
def encAfter (i : Instr) (s : State) : Option EncResult := (next? (exec i s)).bind fun t => t.out.enc
def decAfter (i : Instr) (s : State) : Option DecResult := (next? (exec i s)).bind fun t => t.out.dec
def rsAfter (i : Instr) (s : State) : Option (List RsOut) := (next? (exec i s)).map fun t => t.out.rs

/-- Frame F1 of 95_test_vectors.md section 6. -/
def f1 : List Byte := [0xC0, 0, 0, 0, 0, 0, 0, 0, 1, 7, 0x68, 0x69]

def packetHi : Delivery := { packet := { userField := 7, payload := [0x68, 0x69], payloadType := .string }, flag := 0 }

/-! ## WellFormed refuses an ill-formed term of each check -/

theorem smoke_encode_length_needs_17_bits (flag ptype cmd : Byte) :
    (Instr.encode (List.replicate 65536 0) flag ptype cmd).wellFormed = false := by
  rw [Instr.wellFormed, List.length_replicate]
  decide

theorem smoke_decode_frame_above_1024 : (Instr.decode (List.replicate 1025 0)).wellFormed = false := by
  rw [Instr.wellFormed, List.length_replicate]
  decide

theorem smoke_hdr_word_is_hdrTx : (Instr.hdr 0 12 0).wellFormed = false := by decide
theorem smoke_hdrTx_below_10 : (Instr.hdrTx 9 0).wellFormed = false := by decide
theorem smoke_hdrTx_above_1024 : (Instr.hdrTx 1025 0).wellFormed = false := by decide

theorem smoke_frameNone_payload_above_1014 :
    (Instr.frameNone 0 0 0 (List.replicate 1015 0)).wellFormed = false := by
  rw [Instr.wellFormed, List.length_replicate]
  decide

theorem smoke_frameString_payload_above_1014 :
    (Instr.frameString 0 0 0 (List.replicate 1015 0)).wellFormed = false := by
  rw [Instr.wellFormed, List.length_replicate]
  decide

/-! ## Decoding of words written out from 30_encoding.md R81, R82, R87, R101 and of each port -/

theorem test_decode_hdr_HU12 : decode (.wire [0xC0, 0, 0, 0, 0, 0, 0xFE, 0xFF]) = .op (.hdr 0x7FFF 12 0) := by decide
theorem test_decode_hdr_HU11 :
    decode (.wire [0xC0, 0, 0, 0, 0, 0, 1, 0]) = .op (.hdr 0 17592186044428 0) := by decide
theorem test_decode_hdrTx_H12 : decode (.wire [0xF2, 0x3F, 0, 0, 0, 0, 0, 0]) = .op (.hdrTx 1023 2) := by decide
theorem test_decode_hdrTx_H8 : decode (.wire [0x0A, 0x01, 0, 0, 0, 0, 0, 0]) = .op (.hdrTx 16 10) := by decide
theorem test_decode_frameNone_DV9 :
    decode (.wire [0xA3, 0, 0, 0, 0, 0, 0, 0, 0, 0xC8]) = .op (.frameNone 0 3 0xC8 []) := by decide
theorem test_decode_frameString_DV10 : decode (.wire f1) = .op (.frameString 0 0 7 [0x68, 0x69]) := by decide
theorem test_decode_frame_reserved_type_DV13 :
    decode (.wire [0xC0, 0, 0, 0, 0, 0, 0, 0, 2, 7, 0x68, 0x69]) =
      .op (.rsFeed [0xC0, 0, 0, 0, 0, 0, 0, 0, 2, 7, 0x68, 0x69]) := by decide
theorem test_decode_frame_length_DV11 : decode (.wire (f1 ++ [0])) = .op (.rsFeed (f1 ++ [0])) := by decide
theorem test_decode_noise : decode (.wire [0xFF, 0xFF]) = .op (.rsFeed [0xFF, 0xFF]) := by decide
theorem test_decode_enc : decode (.enc [0x41] 0xF0 1 255) = .op (.encode [0x41] 0xF0 1 255) := by decide
theorem test_encLen : encLen [0x68, 0x69] = 2 := by decide
theorem test_decode_dec : decode (.dec [1, 2]) = .op (.decode [1, 2]) := by decide
theorem test_decLen : decLen [1, 2, 3] = 3 := by decide
theorem test_decode_push : decode (.rsm false false true 0xC0) = .op (.rsPush 0xC0) := by decide
theorem test_decode_clear_over_push : decode (.rsm false true true 0xC0) = .op .rsClear := by decide
theorem test_decode_reset_over_all : decode (.rsm true true true 0xC0) = .reset := by decide
theorem test_decode_nothing_driven : decode (.rsm false false false 0xC0) = .idle := by decide
theorem test_decode_read : decode (.read []) = .op (.rsFeed []) := by decide

theorem test_tableWord_hdr : decodeTableWord 64 (2 ^ 63) = some (.hdr 0x4000 0 0) := by decide
theorem test_tableWord_hdrTx : decodeTableWord 64 0x400F = some (.hdrTx 1024 15) := by decide
theorem test_tableWord_frameNone : decodeTableWord 80 0x050000000000000000A0 = some (.frameNone 0 0 5 []) := by decide
theorem test_tableWord_frameString :
    decodeTableWord 80 0x070100000000000000C0 = some (.frameString 0 0 7 [0, 0]) := by decide
theorem test_tableWord_push : decodeTableWord 8 0xC0 = some (.rsPush 0xC0) := by decide
theorem test_tableWord_clear : decodeTableWord 0 0 = some .rsClear := by decide

theorem test_fetched_table_word_runs :
    ((next? (step (State.reset.withFetchWord 80 0x070100000000000000C0))).map State.delivered) =
      some [{ packet := { userField := 7, payload := [0, 0], payloadType := .string }, flag := 0 }] := by decide

/-! ## Header helpers -/

theorem test_hdrPack_H8 : hdrPack 16 0x1A = [0x0A, 1, 0, 0, 0, 0, 0, 0] := by decide
theorem test_lenValid_HU8 : lenValid (frameLen [0x10, 0x40, 0, 0, 0, 0, 0, 0]) = false := by decide
theorem test_lenValid_HU7 : lenValid (frameLen [0x00, 0x40, 0, 0, 0, 0, 0, 0]) = true := by decide

/-! ## ENCODE -/

theorem test_encode_E5 :
    encAfter (.encode [0xDE, 0xAD, 0xBE, 0xEF, 0, 0xFF] 0x1A 0 0x80) State.reset =
      some (.frame [0x0A, 1, 0, 0, 0, 0, 0, 0, 0, 0x80, 0xDE, 0xAD, 0xBE, 0xEF, 0, 0xFF]) := by decide

theorem test_encode_E11 (flag ptype cmd : Byte) :
    encAfter (.encode (List.replicate 1015 0) flag ptype cmd) State.reset = some (.error .payloadTooLarge) := by
  rw [encAfter, exec, execEncode, encodeFrame, List.length_replicate]
  rfl

/-! ## DECODE -/

theorem test_decode_DV7 : decAfter (.decode [0x40, 1, 0, 0, 0, 0, 0, 0, 1]) State.reset = some (.error .invalidLength) := by
  decide

theorem test_decode_DV17 :
    decAfter (.decode [0xC9, 0, 0, 0, 0, 0, 0, 0, 0, 0xC8, 0x68, 0x69]) State.reset =
      some (.packet { packet := { userField := 200, payload := [0x68, 0x69], payloadType := .none }, flag := 9 }) := by
  decide

/-! ## RS.PUSH, RS.FEED, RS.CLEAR -/

theorem test_push_ST15 :
    rsmAfter (.rsPush 0) (seeking [0xC0, 0, 0, 0, 0, 0, 1]) =
      some { rsState := .seekingHeader, rsExpected := 0, acc := [0, 0, 0, 0, 0, 1, 0] } := by decide

theorem test_push_ST11 :
    rsAfter (.rsPush 0x69) (reading 12 [0xC0, 0, 0, 0, 0, 0, 0, 0, 1, 7, 0x68]) =
      some [{ ev := .packet, err := none, pkt := some packetHi }] := by decide

theorem test_feed_P2 : (next? (exec (.rsFeed f1) State.reset)).map State.delivered = some [packetHi] := by decide

theorem test_feed_P6_frames_of_8_and_9 :
    (rsAfter (.rsFeed [0x80, 0, 0, 0, 0, 0, 0, 0, 0x90, 0, 0, 0, 0, 0, 0, 0, 1]) State.reset).map
      (fun os => (os.filter fun o => decide (o.ev ≠ .none)).map RsOut.ev) = some [.drop, .header, .drop] := by decide

/-- 70_reset_and_hazards.md R243: 00 01 00 00 00 00 00 and any byte are taken for a header of 16 bytes, here six noise bytes and
bytes 0 and 1 of a frame of 32 bytes with flag 0 (log entry 23). -/
theorem test_false_sync_R243 :
    rsmAfter (.rsFeed ([0, 1, 0, 0, 0, 0] ++ (plainFrame (List.replicate 22 1) 0 1 7).take 2)) State.reset =
      some { rsState := .readingBody, rsExpected := 16, acc := [0, 1, 0, 0, 0, 0, 0, 2] } := by decide

theorem test_clear_ST16 :
    rsmAfter .rsClear (reading 12 [0xC0, 0, 0, 0, 0, 0, 0, 0, 1]) = some Rsm.reset := by decide

/-! ## Wire patterns -/

theorem test_hdr_ST14_reserved_bits_ignored :
    rsmAfter (.hdr 0x7FFF 12 0) State.reset =
      some { rsState := .readingBody, rsExpected := 12, acc := [0xC0, 0, 0, 0, 0, 0, 0xFE, 0xFF] } := by decide

theorem test_hdr_ST5_length_1025 :
    rsmAfter (.hdr 0 1025 0) State.reset =
      some { rsState := .seekingHeader, rsExpected := 0, acc := [0x40, 0, 0, 0, 0, 0, 0] } := by decide

theorem test_hdrTx_ST6 :
    rsmAfter (.hdrTx 1024 0) State.reset =
      some { rsState := .readingBody, rsExpected := 1024, acc := [0, 0x40, 0, 0, 0, 0, 0, 0] } := by decide

theorem test_frameNone_DV9 :
    (next? (exec (.frameNone 0 3 0xC8 []) State.reset)).map State.delivered =
      some [{ packet := { userField := 200, payload := [], payloadType := .none }, flag := 3 }] := by decide

theorem test_frameString_DV15_reserved_bits_ignored :
    (next? (exec (.frameString 0x7F80 0 7 [0x68, 0x69]) State.reset)).map State.delivered = some [packetHi] := by decide

/-! ## Witnesses: the hypotheses of each statement can be met, each clause at a boundary of its range -/

theorem witness_DecodeInvertsEncode :
    (Instr.hdrTx 1024 15).wellFormed = true ∧ (Instr.hdrTx 10 0).wellFormed = true ∧
      (Instr.hdr 1 10 0).wellFormed = true ∧ (Instr.hdr 0 9 0).wellFormed = true := by decide

theorem witness_DecodeInvertsEncode_longest :
    (Instr.encode (List.replicate 65535 0) 0 0 0).wellFormed = true ∧
      (Instr.decode (List.replicate 1024 0)).wellFormed = true ∧
      (Instr.frameNone 0 0 0 (List.replicate 1014 0)).wellFormed = true ∧
      (Instr.frameString 0 0 0 (List.replicate 1014 0)).wellFormed = true := by
  simp only [Instr.wellFormed, List.length_replicate, -List.reduceReplicate]
  decide

theorem witness_SelectedOperationIsWellFormed : decode (.wire [0xA0, 0, 0, 0, 0, 0, 0, 0]) = .op (.hdrTx 10 0) := by decide

theorem witness_HeaderHelperLaws : 2 ^ 45 - 1 < 2 ^ 45 := by decide

theorem witness_FrameClassesByMask :
    10 ≤ [0xA0, 0, 0, 0, 0, 0, 0, 0, 0, (5 : Byte)].length ∧
      frameLen [0xA0, 0, 0, 0, 0, 0, 0, 0, 0, (5 : Byte)] = 10 := by decide

theorem witness_FrameClassesByMask_encode :
    encodeFrame [0x68, 0x69] 0 1 7 = .frame f1 := by decide

theorem witness_FrameClassesByMask_neither_class :
    frameLen [0xC0, 0, 0, 0, 0, 0, 0, 0, 2, 7, 0x68, (0x69 : Byte)] = 12 ∧
      decodeFrame [0xC0, 0, 0, 0, 0, 0, 0, 0, 2, 7, 0x68, 0x69] = .error .malformedFrame := by decide

theorem witness_StepRunsSelectedOperation :
    (State.reset.withFetchWord 8 0xC0).inputs = [.rsm false false true 0xC0] ∧
      decode (.rsm false false true 0xC0) = .op (.rsPush 0xC0) := by decide

theorem witness_RsmInputPriority :
    ({ State.reset with inputs := [.rsm true true true 1] } : State).inputs = .rsm true true true 1 :: [] ∧
      State.reset.inputs = [] := by decide

/-- Both sides of each bound in OnlyExcludedTransactionsStop. -/
theorem witness_OnlyExcludedTransactionsStop :
    decode (.enc (List.replicate 65535 0) 0 0 0) = .op (.encode (List.replicate 65535 0) 0 0 0) ∧
    decode (.enc (List.replicate 65536 0) 0 0 0) = .rejected .encLenAboveMax ∧
    decode (.dec (List.replicate 1024 0)) = .op (.decode (List.replicate 1024 0)) ∧
    decode (.dec (List.replicate 1025 0)) = .rejected .decLenAboveMax := by
  refine ⟨?_, ?_, ?_, ?_⟩ <;> simp only [decode, selectEnc, encLen, selectDec, decLen, List.length_replicate] <;> rfl

theorem witness_LengthInputsCountTheBytes :
    (List.replicate 65535 (0 : Byte)).length ≤ 65535 ∧ (List.replicate 1024 (0 : Byte)).length ≤ 1024 := by
  simp only [List.length_replicate, -List.reduceReplicate]
  decide

/-- The selections of WireTransactionsActAsTheirBytes: a header word, both classes, a reserved type, a torn frame. -/
theorem witness_WireTransactionsActAsTheirBytes :
    decode (.wire [0x40, 0, 0, 0, 0, 0, 0, 0]) = .op (.hdr 0 4 0) ∧
    decode (.wire [0xA0, 0, 0, 0, 0, 0, 0, 0, 0, 5]) = .op (.frameNone 0 0 5 []) ∧
    decode (.wire [0xA0, 0, 0, 0, 0, 0, 0, 0, 1, 5]) = .op (.frameString 0 0 5 []) ∧
    decode (.wire [0xA0, 0, 0, 0, 0, 0, 0, 0, 2, 5]) = .op (.rsFeed [0xA0, 0, 0, 0, 0, 0, 0, 0, 2, 5]) ∧
    decode (.wire [0xA0, 0, 0, 0, 0, 0, 0, 0, 1]) = .op (.rsFeed [0xA0, 0, 0, 0, 0, 0, 0, 0, 1]) := by decide

theorem witness_OnlyRsmTransactionsChangeTheReassembler :
    (next? (step { State.reset with inputs := [.read [1]] })).map State.rsm ≠ some State.reset.rsm := by decide

theorem witness_CodecCommutesWithReassembler :
    (Instr.decode []).port ≠ .rsm ∧ (Instr.encode [] 0 0 0).port ≠ .rsm ∧ (Instr.rsPush 0).port = .rsm := by decide

theorem witness_invariants : State.reset.Inv ∧ (seeking [1, 2, 3, 4, 5, 6, 7]).Inv ∧
    (reading 9 [0x90, 0, 0, 0, 0, 0, 0, 0]).Inv ∧ (reading 1024 [0, 0x40, 0, 0, 0, 0, 0, 0]).Inv := by decide

theorem witness_StepKeepsInvariants :
    (next? (step { seeking [0x90, 0, 0, 0, 0, 0, 0] with inputs := [.rsm false false true 0] })).map State.rsm =
      some (reading 9 [0x90, 0, 0, 0, 0, 0, 0, 0]).rsm := by decide

theorem witness_EncodeProducesWholeFrame : (List.replicate 1014 (0 : Byte)).length ≤ 1014 := by
  rw [List.length_replicate]

theorem witness_EncodeTooLargeProducesNothing : 1014 < (List.replicate 1015 (0 : Byte)).length := by
  rw [List.length_replicate]
  decide

theorem witness_EncodeDecodeRoundTrip :
    (List.replicate 1014 (0 : Byte)).length ≤ 1014 ∧ ((1 : Byte) = 0 ∨ (1 : Byte) = 1) := by
  rw [List.length_replicate]
  decide

theorem witness_DecodeTooShort :
    ([] : List Byte).length < 8 ∧ [1, 2, 3, 4, 5, 6, (7 : Byte)].length < 8 ∧
      8 ≤ [1, 2, 3, 4, 5, 6, 7, (8 : Byte)].length := by decide

/-- The causes of DecodePortsShowOutcome: 7 bytes; 8 that announce 4; 8, 9 and 10 that announce themselves. -/
theorem witness_DecodePortsShowOutcome :
    decodeFrame [1, 2, 3, 4, 5, 6, 7] = .error .frameTooShort ∧
    decodeFrame [0x40, 0, 0, 0, 0, 0, 0, 0] = .error .invalidLength ∧
    decodeFrame [0x80, 0, 0, 0, 0, 0, 0, 0] = .error .malformedFrame ∧
    decodeFrame [0x90, 0, 0, 0, 0, 0, 0, 0, 1] = .error .malformedFrame ∧
    decodeFrame [0xA0, 0, 0, 0, 0, 0, 0, 0, 2, 5] = .error .malformedFrame ∧
    decodeFrame [0xA0, 0, 0, 0, 0, 0, 0, 0, 1, 5] =
      .packet { packet := { userField := 5, payload := [], payloadType := .string }, flag := 0 } := by decide

/-- What the DEC port shows of frame F1 (95_test_vectors.md). -/
theorem test_dec_port_F1 :
    (next? (exec (.decode f1) State.reset)).map (fun t => (t.decErr, t.decPayloadLen, t.decFlag)) =
      some (some 0, some 2, some 0) := by decide

theorem witness_PortPayloadsAreAtMost1014Bytes :
    State.reset.Inv ∧
    ((next? (step { State.reset with inputs := [.dec f1] })).bind State.decPkt) = some packetHi.packet ∧
    ((next? (step { State.reset with inputs := [.read f1] })).bind State.rsPkt) = some packetHi.packet := by decide

theorem witness_DecodeIgnoresReservedBitsAndFlag :
    10 + (List.replicate 2000 (0 : Byte)).length < 2 ^ 45 ∧ (1 : Byte).toNat ≤ 1 := by
  rw [List.length_replicate]
  decide

/-- The clauses of PushWhileSeeking: 7 bytes after the append; 8 with a length of 7, of 1025, of 8, of 9 and of 1024. -/
theorem witness_PushWhileSeeking :
    (seeking [1, 2, 3, 4, 5, 6]).Inv ∧ ((seeking [1, 2, 3, 4, 5, 6]).rsm.acc ++ [7]).length < 8 ∧
    (seeking [0x70, 0, 0, 0, 0, 0, 0]).Inv ∧ frameLen ([0x70, 0, 0, 0, 0, 0, 0] ++ [0]) < 8 ∧
    1024 < frameLen ([0x10, 0x40, 0, 0, 0, 0, 0] ++ [0]) ∧ frameLen ([0x80, 0, 0, 0, 0, 0, 0] ++ [0]) = 8 ∧
    frameLen ([0x90, 0, 0, 0, 0, 0, 0] ++ [0]) = 9 ∧ frameLen ([0, 0x40, 0, 0, 0, 0, 0] ++ [0]) = 1024 := by decide

/-- The clauses of PushWhileReading: one byte short of the length, complete and accepted, complete and malformed. -/
theorem witness_PushWhileReading :
    (reading 12 [0xC0, 0, 0, 0, 0, 0, 0, 0, 1, 7]).Inv ∧
    ((reading 12 [0xC0, 0, 0, 0, 0, 0, 0, 0, 1, 7]).rsm.acc ++ [0x68]).length < 12 ∧
    (reading 12 [0xC0, 0, 0, 0, 0, 0, 0, 0, 1, 7, 0x68]).Inv ∧ decodeFrame f1 = .packet packetHi ∧
    (reading 9 [0x90, 0, 0, 0, 0, 0, 0, 0]).Inv ∧
    decodeFrame ([0x90, 0, 0, 0, 0, 0, 0, 0] ++ [1]) = .error .malformedFrame := by decide

/-- The pushes of PushReportsOnlyMalformedFrame: no error below the length, an error at 8 bytes, at 9 and for a reserved type. -/
theorem witness_PushReportsOnlyMalformedFrame :
    (seeking [0x80, 0, 0, 0, 0, 0, 0]).Inv ∧
    rsAfter (.rsPush 0) (seeking [0x80, 0, 0, 0, 0, 0, 0]) =
      some [{ ev := .drop, err := some .malformedFrame, pkt := none }] ∧
    rsAfter (.rsPush 1) (reading 9 [0x90, 0, 0, 0, 0, 0, 0, 0]) =
      some [{ ev := .drop, err := some .malformedFrame, pkt := none }] ∧
    rsAfter (.rsPush 5) (reading 10 [0xA0, 0, 0, 0, 0, 0, 0, 0, 2]) =
      some [{ ev := .drop, err := some .malformedFrame, pkt := none }] ∧
    rsAfter (.rsPush 1) (reading 10 [0xA0, 0, 0, 0, 0, 0, 0, 0]) = some [RsOut.idle] := by decide

/-- The clauses of PushPortsShowEvent in ReadingBody: below the length, 9 bytes, a reserved type, a packet of 10 bytes. -/
theorem witness_PushPortsShowEvent :
    (reading 10 [0xA0, 0, 0, 0, 0, 0, 0, 0]).Inv ∧ ([0xA0, 0, 0, 0, 0, 0, 0, 0, (1 : Byte)]).length < 10 ∧
    (reading 9 [0x90, 0, 0, 0, 0, 0, 0, 0]).Inv ∧ ([0x90, 0, 0, 0, 0, 0, 0, 0, (1 : Byte)]).length = 9 ∧
    (reading 10 [0xA0, 0, 0, 0, 0, 0, 0, 0, 2]).Inv ∧ 1 < ([0xA0, 0, 0, 0, 0, 0, 0, 0, 2, (5 : Byte)].getD 8 0).toNat ∧
    (reading 10 [0xA0, 0, 0, 0, 0, 0, 0, 0, 1]).Inv ∧
    ([0xA0, 0, 0, 0, 0, 0, 0, 0, 1, (5 : Byte)].getD 8 0).toNat ≤ 1 := by decide

/-- What the RSM port shows with the last byte of F1 (95_test_vectors.md ST11). -/
theorem test_rs_port_ST11 :
    (next? (exec (.rsPush 0x69) (reading 12 [0xC0, 0, 0, 0, 0, 0, 0, 0, 1, 7, 0x68]))).map
      (fun t => (t.rsEv, t.rsErr, t.rsPktPayloadLen, t.rsPktFlag)) = some (3, 0, some 2, some 0) := by decide

/-- A stream of C0 that never ends, read two bytes at a time and byte by byte. -/
theorem witness_InfiniteStreamsAreConsumed :
    State.reset.Inv ∧ State.reset.inputs = [] ∧
      readBytes (fun _ => [0xC0, 0xC0]) 3 = (List.range 6).map (fun _ => (0xC0 : Byte)) := by decide

/-- Whatever `K_MAX` is, reads of one byte each are legal (20_memory.md R60). -/
theorem legal_reads_exist (bytes : Nat → Byte) : (Environment.ofReads fun n => [bytes n]).LegalReads := by
  intro n chunk h
  cases h
  exact Nat.succ_le_succ (Nat.zero_le _)

theorem witness_initial_reassembler : State.reset.rsm = Rsm.reset := rfl

theorem witness_SplitDelivery :
    State.reset.rsm = Rsm.reset ∧ ([0x68, 0x69] : List Byte).length ≤ 1014 ∧ ((1 : Byte) = 0 ∨ (1 : Byte) = 1) := by decide

theorem witness_ResynchronizationYieldsBothFrames :
    ({ payload := [0x68, 0x69], flag := 0, ptype := 1, cmd := 7 } : FrameFields).Valid ∧
    ({ payload := [], flag := 3, ptype := 0, cmd := 200 } : FrameFields).Valid ∧ State.reset.rsm = Rsm.reset ∧
    [List.replicate 7 0xFF ++ f1, [0x5A], [0xA3, 0, 0, 0, 0, 0, 0, 0, 0, 0xC8]].flatten =
      List.replicate 7 0xFF ++ ({ payload := [0x68, 0x69], flag := 0, ptype := 1, cmd := 7 } : FrameFields).bytes ++
        [0x5A] ++ ({ payload := [], flag := 3, ptype := 0, cmd := 200 } : FrameFields).bytes := by decide

theorem witness_BackToBackFramesInOrder :
    ∀ f ∈ [({ payload := [], flag := 3, ptype := 0, cmd := 200 } : FrameFields),
      { payload := [0x41], flag := 0, ptype := 1, cmd := 0 }], f.Valid := by decide

theorem witness_NoiseWithoutFalseHeaderIsRejected :
    NoFalseHeader 2 ([0xFF, 0xFF] ++ plainFrame [] 3 0 200) := by decide

theorem witness_ShortNoiseAndRunsAreRejected :
    ([0, 1, 0, 0] : List Byte).length ≤ 4 ∧
      List.replicate 5 (0xFF : Byte) = List.replicate (List.replicate 5 (0xFF : Byte)).length 0xFF ∧
      List.replicate 5 (0 : Byte) = List.replicate (List.replicate 5 (0 : Byte)).length 0 := by decide

/-- The clauses of CandidateHeadersInNoise: 4 noise bytes left (noise of log entry 23 cut short), 5, 6 and 7 left, each of the
last three with a candidate that announces 16. -/
theorem witness_CandidateHeadersInNoise :
    lenValid (frameLen ([0, 1, 0, 0] ++ plainFrame (List.replicate 22 1) 0 1 7)) = false ∧
    lenValid (frameLen ([0, 1, 0, 0, 0] ++ plainFrame (List.replicate 22 1) 0 1 7)) = true ∧
    lenValid (frameLen ([0, 1, 0, 0, 0, 0] ++ plainFrame [] 0 1 7)) = true ∧
    lenValid (frameLen ([0, 1, 0, 0, 0, 0, 0] ++ plainFrame [] 0 1 7)) = true := by decide

/-- A candidate behind one noise byte (70_reset_and_hazards.md R243), and one that announces 8 bytes. -/
theorem witness_FirstValidCandidateIsTaken :
    NoFalseHeader 1 [0xFF, 0, 1, 0, 0, 0, 0, 0, 0x55] ∧ frameLen ([0xFF, 0, 1, 0, 0, 0, 0, 0, 0x55].drop 1) = 16 ∧
    NoFalseHeader 1 [0xFF, 0x80, 0, 0, 0, 0, 0, 0, 0x55] ∧ frameLen ([0xFF, 0x80, 0, 0, 0, 0, 0, 0, 0x55].drop 1) = 8 := by
  decide

/-- Five noise bytes that hide a frame's header (log entry 23): total_length 16 is read from noise and frame together. -/
theorem witness_NoiseOfSixBytesIsRejected :
    ([0, 1, 0, 0, 0] : List Byte).length ≤ 6 ∧
      frameLen ([0, 1, 0, 0, 0] ++ plainFrame (List.replicate 22 1) 0 1 7) = 16 := by decide

theorem witness_WholeFrameIsConsumed_accepted :
    frameLen f1 = f1.length ∧ 8 ≤ f1.length ∧ f1.length ≤ 1024 ∧ decodeFrame f1 = .packet packetHi := by decide

theorem witness_WholeFrameIsConsumed_dropped :
    frameLen [0x80, 0, 0, 0, 0, 0, 0, (0 : Byte)] = 8 ∧
      decodeFrame [0x80, 0, 0, 0, 0, 0, 0, 0] = .error .malformedFrame := by decide

theorem witness_TornFrameSwallowsWhatFollows :
    (reading 12 [0xC0, 0, 0, 0, 0, 0, 0, 0, 1, 7]).Inv ∧
      ([0xA3, 0] : List Byte).length = (12 : BitVec 11).toNat - (reading 12 [0xC0, 0, 0, 0, 0, 0, 0, 0, 1, 7]).rsm.acc.length := by
  decide

theorem witness_ParkedBodyStaysParked :
    (reading 1024 [0, 0x40, 0, 0, 0, 0, 0, 0]).Inv ∧
      ([] : List Byte).length < (1024 : BitVec 11).toNat - 8 ∧ (Instr.decode []).port ≠ .rsm ∧
      (next? (exec (.decode []) State.reset)).isSome = true := by decide

theorem witness_WirePatternsAreTheirBytes :
    (10 : BitVec 45).toNat = 10 + ([] : List Byte).length ∧ (List.replicate 1014 (0 : Byte)).length ≤ 1014 := by
  rw [List.length_replicate]
  decide

/-- A header that claims 4 with every flag bit and every reserved bit set. -/
theorem witness_HeaderClaimingFourIsNoise :
    frameLen [BitVec.ofNat 8 (0x40 + (15 : BitVec 4).toNat), 0, 0, 0, 0, 0,
      ((0x7FFF : BitVec 15).extractLsb' 0 7 ++ (0 : BitVec 1) : BitVec (7 + 1)), (0x7FFF : BitVec 15).extractLsb' 7 8] = 4 ∧
    [BitVec.ofNat 8 (0x40 + (15 : BitVec 4).toNat), 0, 0, 0, 0, 0,
      ((0x7FFF : BitVec 15).extractLsb' 0 7 ++ (0 : BitVec 1) : BitVec (7 + 1)), (0x7FFF : BitVec 15).extractLsb' 7 8] =
      [0x4F, 0, 0, 0, 0, 0, 0xFE, (0xFF : Byte)] := by decide

/-- The clauses of HeaderWordArrives: lengths 7, 1025, 8, 9, 1024. -/
theorem witness_HeaderWordArrives :
    (7 : BitVec 45).toNat < 8 ∧ 1024 < (1025 : BitVec 45).toNat ∧ (8 : BitVec 45).toNat = 8 ∧
      9 ≤ (9 : BitVec 45).toNat ∧ (1024 : BitVec 45).toNat ≤ 1024 := by decide

theorem witness_TransmittedHeaderIsAccepted :
    10 ≤ (10 : BitVec 11).toNat ∧ (1024 : BitVec 11).toNat ≤ 1024 ∧ State.reset.rsm = Rsm.reset := by decide

theorem witness_FrameClassesAreDelivered :
    (List.replicate 1014 (0 : Byte)).length ≤ 1014 ∧ State.reset.rsm = Rsm.reset := by
  rw [List.length_replicate]
  exact ⟨le_refl _, rfl⟩

end Sys2Proof.Tests
end

/-! PROOFS. The statements about the ports, the selection and the invariants (10_state.md). -/

namespace Sys2Proof

/-! ## What a transaction selects (10_state.md R33 to R35) -/

theorem encLen_toNat (payload : List Byte) : (encLen payload).toNat = payload.length % 65536 := BitVec.toNat_ofNat _ _

theorem decLen_toNat (frame : List Byte) : (decLen frame).toNat = frame.length % 2048 := BitVec.toNat_ofNat _ _

theorem txLen_iff (n : Nat) : txLen n = true ↔ 10 ≤ n ∧ n ≤ 1024 := by simp [txLen]

theorem selectEnc_of_le {payload : List Byte} (h : payload.length ≤ 65535) (flag ptype cmd : Byte) :
    selectEnc payload flag ptype cmd = .op (.encode payload flag ptype cmd) :=
  if_pos (by rw [encLen_toNat]; omega)

theorem selectEnc_of_lt {payload : List Byte} (h : 65535 < payload.length) (flag ptype cmd : Byte) :
    selectEnc payload flag ptype cmd = .rejected .encLenAboveMax :=
  if_neg (by rw [encLen_toNat]; omega)

theorem selectDec_of_le {frame : List Byte} (h : frame.length ≤ 1024) : selectDec frame = .op (.decode frame) :=
  if_pos ⟨by rw [decLen_toNat]; omega, h⟩

theorem selectDec_of_lt {frame : List Byte} (h : 1024 < frame.length) : selectDec frame = .rejected .decLenAboveMax :=
  if_neg fun h' => absurd h'.2 (Nat.not_le.2 h)

theorem selectEnc_cases (payload : List Byte) (flag ptype cmd : Byte) :
    (payload.length ≤ 65535 ∧ selectEnc payload flag ptype cmd = .op (.encode payload flag ptype cmd)) ∨
    (65535 < payload.length ∧ selectEnc payload flag ptype cmd = .rejected .encLenAboveMax) :=
  (Nat.lt_or_ge 65535 payload.length).symm.imp (fun h => ⟨h, selectEnc_of_le h _ _ _⟩) fun h => ⟨h, selectEnc_of_lt h _ _ _⟩

theorem selectDec_cases (frame : List Byte) :
    (frame.length ≤ 1024 ∧ selectDec frame = .op (.decode frame)) ∨
    (1024 < frame.length ∧ selectDec frame = .rejected .decLenAboveMax) :=
  (Nat.lt_or_ge 1024 frame.length).symm.imp (fun h => ⟨h, selectDec_of_le h⟩) fun h => ⟨h, selectDec_of_lt h⟩

/-- The header pattern of a word: HDR.TX exactly for a word that ENCODE can write, with its length on 11 bits. -/
theorem wireHeader_cases (h : List Byte) :
    (hdrRsvd (le64 h) = 0 ∧ txLen (hdrLen (le64 h)).toNat = true ∧
      wireHeader h = .hdrTx ((hdrLen (le64 h)).setWidth 11) (hdrFlag (le64 h))) ∨
    (¬ (hdrRsvd (le64 h) = 0 ∧ txLen (hdrLen (le64 h)).toNat = true) ∧
      wireHeader h = .hdr (hdrRsvd (le64 h)) (hdrLen (le64 h)) (hdrFlag (le64 h))) := by
  by_cases hw : hdrRsvd (le64 h) = 0 ∧ txLen (hdrLen (le64 h)).toNat = true
  · exact Or.inl ⟨hw.1, hw.2, if_pos hw⟩
  · exact Or.inr ⟨hw, if_neg hw⟩

theorem hdr_wellFormed_iff (rsvd : BitVec 15) (len : BitVec 45) (flag : BitVec 4) :
    (Instr.hdr rsvd len flag).wellFormed = true ↔ ¬ (rsvd = 0 ∧ txLen len.toNat = true) := by
  simp [Instr.wellFormed, imp_iff_not_or]

/-- A length that ENCODE produces loses nothing on the 11 bits of HDR.TX. -/
theorem setWidth_toNat_of_txLen {len : BitVec 45} (h : txLen len.toNat = true) : (len.setWidth 11).toNat = len.toNat := by
  rw [txLen_iff] at h
  rw [BitVec.toNat_setWidth, Nat.mod_eq_of_lt (by omega)]

theorem setWidth_lenW_toNat (len : BitVec 11) : (len.setWidth 45).toNat = len.toNat := by
  have := len.isLt
  rw [BitVec.toNat_setWidth, Nat.mod_eq_of_lt (by omega)]

theorem setWidth_setWidth_len (len : BitVec 11) : (len.setWidth 45).setWidth 11 = len := by
  apply BitVec.eq_of_toNat_eq
  have := len.isLt
  rw [BitVec.toNat_setWidth, setWidth_lenW_toNat, Nat.mod_eq_of_lt (by omega)]

theorem selectWire_header {bytes : List Byte} (h : bytes.length = 8) : selectWire bytes = wireHeader bytes := if_pos h

theorem selectWire_frame {bytes : List Byte} (h : bytes.length ≠ 8) :
    selectWire bytes = (wireFrame bytes).getD (.rsFeed bytes) := if_neg h

/-- A frame of at most 1024 bytes is classed by its byte 8, with the fields of its header. -/
theorem wireFrame_frameBytes (rsvd : BitVec 15) (flag : BitVec 4) (ptype cmd : Byte) {payload : List Byte}
    (h : payload.length ≤ 1014) :
    wireFrame (frameBytes rsvd flag ptype cmd payload) =
      wireClass (hdrWord rsvd (BitVec.ofNat 45 (10 + payload.length)) flag) ptype cmd payload := by
  have hc : frameLen (frameBytes rsvd flag ptype cmd payload) = (frameBytes rsvd flag ptype cmd payload).length ∧
      (frameBytes rsvd flag ptype cmd payload).length ≤ 1024 := by
    rw [frameLen_frameBytes _ _ _ _ _ (by omega), frameBytes_length]
    omega
  have hw : le64 ((frameBytes rsvd flag ptype cmd payload).take 8) =
      hdrWord rsvd (BitVec.ofNat 45 (10 + payload.length)) flag := by rw [frameBytes_take, le64_bytesLe64]
  rcases wireFrame_cases (frameBytes rsvd flag ptype cmd payload) with ⟨p, c, rest, hd, -, -, he⟩ | ⟨hn, -⟩
  · rw [frameBytes_drop] at hd
    obtain ⟨rfl, rfl, rfl⟩ : ptype = p ∧ cmd = c ∧ payload = rest := by simpa using hd
    rw [he, hw]
  · exact absurd ⟨by rw [frameBytes_length]; omega, hc⟩ hn

theorem wireClass_none (w : HeaderWord) (cmd : Byte) (payload : List Byte) :
    wireClass w 0 cmd payload = some (.frameNone (hdrRsvd w) (hdrFlag w) cmd payload) := if_pos rfl

theorem wireClass_string (w : HeaderWord) (cmd : Byte) (payload : List Byte) :
    wireClass w 1 cmd payload = some (.frameString (hdrRsvd w) (hdrFlag w) cmd payload) := rfl

/-- A classed frame is one of the two classes, with its header's fields and what stands behind byte 8. -/
theorem wireClass_eq_some {w : HeaderWord} {ptype cmd : Byte} {payload : List Byte} {i : Instr}
    (h : wireClass w ptype cmd payload = some i) :
    i = .frameNone (hdrRsvd w) (hdrFlag w) cmd payload ∨ i = .frameString (hdrRsvd w) (hdrFlag w) cmd payload := by
  unfold wireClass at h
  split at h
  · exact Or.inl (Option.some.inj h).symm
  · split at h
    · exact Or.inr (Option.some.inj h).symm
    · cases h

/-- A frame pattern is one of the two classes, with a payload that fits `MAX_TOTAL_LEN`. -/
theorem wireFrame_eq_some {bytes : List Byte} {i : Instr} (h : wireFrame bytes = some i) :
    ∃ rsvd flag cmd payload, payload.length ≤ 1014 ∧
      (i = .frameNone rsvd flag cmd payload ∨ i = .frameString rsvd flag cmd payload) := by
  rcases wireFrame_cases bytes with ⟨ptype, cmd, payload, hd, -, hl, he⟩ | ⟨-, he⟩ <;> rw [he] at h
  · have hlen := congrArg List.length hd
    simp only [List.length_drop, List.length_cons] at hlen
    exact ⟨_, _, cmd, payload, by omega, wireClass_eq_some h⟩
  · cases h

/-- Bytes are named a header, a frame pattern, or nothing but bytes. -/
theorem selectWire_cases (bytes : List Byte) :
    (bytes.length = 8 ∧ selectWire bytes = wireHeader bytes) ∨
    (bytes.length ≠ 8 ∧ wireFrame bytes = some (selectWire bytes)) ∨
    (bytes.length ≠ 8 ∧ wireFrame bytes = none ∧ selectWire bytes = .rsFeed bytes) := by
  by_cases h : bytes.length = 8
  · exact Or.inl ⟨h, selectWire_header h⟩
  · rw [selectWire_frame h]
    cases hf : wireFrame bytes with
    | some i => exact Or.inr (Or.inl ⟨h, rfl⟩)
    | none => exact Or.inr (Or.inr ⟨h, rfl, rfl⟩)

theorem wireHeader_wellFormed (h : List Byte) : (wireHeader h).wellFormed = true := by
  rcases wireHeader_cases h with ⟨-, hl, he⟩ | ⟨hn, he⟩ <;> rw [he]
  · change txLen _ = true
    rwa [setWidth_toNat_of_txLen hl]
  · exact (hdr_wellFormed_iff _ _ _).2 hn

theorem selectWire_wellFormed (bytes : List Byte) : (selectWire bytes).wellFormed = true := by
  rcases selectWire_cases bytes with ⟨-, he⟩ | ⟨-, hf⟩ | ⟨-, -, he⟩
  · rw [he]
    exact wireHeader_wellFormed bytes
  · obtain ⟨_, _, _, payload, hl, he | he⟩ := wireFrame_eq_some hf <;> rw [he] <;> exact decide_eq_true hl
  · rw [he]
    rfl

/-- Every wire pattern arrives at the reassembler. -/
theorem selectWire_port (bytes : List Byte) : (selectWire bytes).port = .rsm := by
  rcases selectWire_cases bytes with ⟨-, he⟩ | ⟨-, hf⟩ | ⟨-, -, he⟩
  · rcases wireHeader_cases bytes with ⟨-, -, hw⟩ | ⟨-, hw⟩ <;> rw [he, hw] <;> rfl
  · obtain ⟨_, _, _, _, -, he | he⟩ := wireFrame_eq_some hf <;> rw [he] <;> rfl
  · rw [he]
    rfl

/-- What a selected operation's transaction looks like: which port it came from and what was presented there. -/
theorem decode_op_cases {t : Transaction} {i : Instr} (h : decode t = .op i) :
    (∃ payload flag ptype cmd, t = .enc payload flag ptype cmd ∧ payload.length ≤ 65535 ∧
      i = .encode payload flag ptype cmd) ∨
    (∃ frame, t = .dec frame ∧ frame.length ≤ 1024 ∧ i = .decode frame) ∨
    (∃ valid b, t = .rsm false true valid b ∧ i = .rsClear) ∨
    (∃ b, t = .rsm false false true b ∧ i = .rsPush b) ∨
    (∃ chunk, t = .read chunk ∧ i = .rsFeed chunk) ∨
    (∃ bytes, t = .wire bytes ∧ i = selectWire bytes) := by
  cases t with
  | enc payload flag ptype cmd =>
    rcases selectEnc_cases payload flag ptype cmd with ⟨hl, he⟩ | ⟨-, he⟩ <;> rw [decode, he] at h <;> cases h
    exact Or.inl ⟨_, _, _, _, rfl, hl, rfl⟩
  | dec frame =>
    rcases selectDec_cases frame with ⟨hl, he⟩ | ⟨-, he⟩ <;> rw [decode, he] at h <;> cases h
    exact Or.inr (Or.inl ⟨_, rfl, hl, rfl⟩)
  | rsm reset clear valid b =>
    cases reset with
    | true => cases h
    | false =>
      cases clear with
      | true =>
        cases h
        exact Or.inr (Or.inr (Or.inl ⟨_, _, rfl, rfl⟩))
      | false =>
        cases valid with
        | true =>
          cases h
          exact Or.inr (Or.inr (Or.inr (Or.inl ⟨_, rfl, rfl⟩)))
        | false => cases h
  | read chunk =>
    cases h
    exact Or.inr (Or.inr (Or.inr (Or.inr (Or.inl ⟨_, rfl, rfl⟩))))
  | wire bytes =>
    cases h
    exact Or.inr (Or.inr (Or.inr (Or.inr (Or.inr ⟨_, rfl, rfl⟩))))

/-- An operation runs on the port its transaction drives. -/
theorem decode_op_port {t : Transaction} {i : Instr} (h : decode t = .op i) : i.port = t.port := by
  rcases decode_op_cases h with ⟨_, _, _, _, rfl, -, rfl⟩ | ⟨_, rfl, -, rfl⟩ | ⟨_, _, rfl, rfl⟩ | ⟨_, rfl, rfl⟩ |
    ⟨_, rfl, rfl⟩ | ⟨bytes, rfl, rfl⟩
  case inr.inr.inr.inr.inr => exact selectWire_port bytes
  all_goals rfl

theorem decode_reset_port {t : Transaction} (h : decode t = .reset) : t.port = .rsm := by
  cases t with
  | enc payload flag ptype cmd =>
    rcases selectEnc_cases payload flag ptype cmd with ⟨-, he⟩ | ⟨-, he⟩ <;> rw [decode, he] at h <;> cases h
  | dec frame =>
    rcases selectDec_cases frame with ⟨-, he⟩ | ⟨-, he⟩ <;> rw [decode, he] at h <;> cases h
  | rsm reset clear valid b => rfl
  | read chunk => rfl
  | wire bytes => rfl

/-- The RSM inputs reject nothing. -/
theorem selectRsm_ne_rejected (reset clear valid : Bool) (b : Byte) (why : Reject) :
    selectRsm reset clear valid b ≠ .rejected why := by
  unfold selectRsm
  split_ifs <;> exact nofun

theorem decode_encode_hdr {rsvd : BitVec 15} {len : BitVec 45} {flag : BitVec 4}
    (h : (Instr.hdr rsvd len flag).wellFormed = true) :
    decode (encode (.hdr rsvd len flag)) = .op (.hdr rsvd len flag) := by
  rw [encode, decode, selectWire_header (bytesLe64_length _)]
  rcases wireHeader_cases (bytesLe64 (hdrWord rsvd len flag)) with ⟨h0, hl, -⟩ | ⟨-, he⟩
  · simp only [le64_bytesLe64, hdrRsvd_hdrWord, hdrLen_hdrWord] at h0 hl
    exact absurd ⟨h0, hl⟩ ((hdr_wellFormed_iff _ _ _).1 h)
  · rw [he]
    simp

theorem decode_encode_hdrTx {len : BitVec 11} {flag : BitVec 4} (h : txLen len.toNat = true) :
    decode (encode (.hdrTx len flag)) = .op (.hdrTx len flag) := by
  rw [encode, decode, selectWire_header (bytesLe64_length _)]
  rcases wireHeader_cases (bytesLe64 (hdrWord 0 (len.setWidth 45) flag)) with ⟨-, -, he⟩ | ⟨hn, -⟩
  · rw [he, le64_bytesLe64, hdrLen_hdrWord, hdrFlag_hdrWord, setWidth_setWidth_len]
  · refine absurd ?_ hn
    rw [le64_bytesLe64, hdrLen_hdrWord, hdrRsvd_hdrWord, setWidth_lenW_toNat]
    exact ⟨rfl, h⟩

/-- The wire pattern of a frame of at most 1024 bytes is its class's. -/
theorem selectWire_frameBytes (rsvd : BitVec 15) (flag : BitVec 4) (ptype cmd : Byte) {payload : List Byte}
    (h : payload.length ≤ 1014) :
    selectWire (frameBytes rsvd flag ptype cmd payload) =
      (wireClass (hdrWord rsvd (BitVec.ofNat 45 (10 + payload.length)) flag) ptype cmd payload).getD
        (.rsFeed (frameBytes rsvd flag ptype cmd payload)) := by
  rw [selectWire_frame (by rw [frameBytes_length]; omega), wireFrame_frameBytes _ _ _ _ h]

theorem decode_encode {i : Instr} (h : i.wellFormed = true) : decode (encode i) = .op i := by
  cases i with
  | encode payload flag ptype cmd => exact selectEnc_of_le (Nat.le_of_lt_succ (of_decide_eq_true h)) flag ptype cmd
  | decode frame => exact selectDec_of_le (of_decide_eq_true h)
  | rsPush b => rfl
  | rsFeed chunk => rfl
  | rsClear => rfl
  | hdr rsvd len flag => exact decode_encode_hdr h
  | hdrTx len flag => exact decode_encode_hdrTx h
  | frameNone rsvd flag cmd payload =>
    rw [encode, decode, selectWire_frameBytes _ _ _ _ (of_decide_eq_true h), wireClass_none]
    simp
  | frameString rsvd flag cmd payload =>
    rw [encode, decode, selectWire_frameBytes _ _ _ _ (of_decide_eq_true h), wireClass_string]
    simp

theorem decode_op_wellFormed {t : Transaction} {i : Instr} (h : decode t = .op i) : i.wellFormed = true := by
  rcases decode_op_cases h with ⟨_, _, _, _, -, hl, rfl⟩ | ⟨_, -, hl, rfl⟩ | ⟨_, _, -, rfl⟩ | ⟨_, -, rfl⟩ |
    ⟨_, -, rfl⟩ | ⟨bytes, -, rfl⟩
  · exact decide_eq_true (Nat.lt_succ_of_le hl)
  · exact decide_eq_true hl
  · rfl
  · rfl
  · rfl
  · exact selectWire_wellFormed bytes

end Sys2Proof

namespace Sys2Proof.Machine

/-! ## What an operation and a step can do -/

@[simp] theorem exec_decode (frame : List Byte) (s : State) :
    exec (.decode frame) s = .next { s with out := { enc := none, dec := some (decodeFrame frame), rs := [] } } := by
  simp only [exec, execDecode]
  cases decodeFrame frame <;> rfl

@[simp] theorem exec_rsPush (b : Byte) (s : State) :
    exec (.rsPush b) s = .next (giveRsm (pushByte b s.rsm).1 [(pushByte b s.rsm).2] s) := rfl

/-- ENCODE answers with an outcome on its own port and leaves the reassembler alone (40_encoder.md R125). -/
theorem exec_encode (payload : List Byte) (flag ptype cmd : Byte) (s : State) :
    ∃ t, exec (.encode payload flag ptype cmd) s = .next t ∧ t.rsm = s.rsm ∧
      t.out = { enc := some (encodeFrame payload flag ptype cmd), dec := none, rs := [] } := by
  simp only [exec, execEncode]
  cases encodeFrame payload flag ptype cmd <;> exact ⟨_, rfl, rfl, rfl⟩

/-- Every row that drives RSM feeds a chunk (RS.PUSH one of a single byte) or clears the reassembler. -/
theorem exec_rsm {i : Instr} (h : i.port = .rsm) (s : State) :
    (∃ chunk, exec i s = .next (giveChunk chunk s)) ∨ exec i s = .next (resetRsm s) := by
  cases i with
  | encode => cases h
  | decode => cases h
  | rsPush b => exact Or.inl ⟨[b], rfl⟩
  | rsClear => exact Or.inr rfl
  | rsFeed | hdr | hdrTx | frameNone | frameString => exact Or.inl ⟨_, rfl⟩

/-- Everything an operation's next state can be. -/
theorem exec_cases {i : Instr} {s t : State} (h : exec i s = .next t) :
    (i.port = .enc ∧ t.rsm = s.rsm ∧ ∃ r, t.out = { enc := some r, dec := none, rs := [] }) ∨
    (∃ frame, i = .decode frame ∧ t = { s with out := { enc := none, dec := some (decodeFrame frame), rs := [] } }) ∨
    (i.port = .rsm ∧ ∃ chunk, t = giveChunk chunk s) ∨
    (i.port = .rsm ∧ t = resetRsm s) := by
  by_cases hp : i.port = .rsm
  · rcases exec_rsm hp s with ⟨chunk, he⟩ | he <;> rw [he] at h <;> cases h
    · exact Or.inr (Or.inr (Or.inl ⟨hp, chunk, rfl⟩))
    · exact Or.inr (Or.inr (Or.inr ⟨hp, rfl⟩))
  cases i with
  | encode payload flag ptype cmd =>
    obtain ⟨u, hu, hr, ho⟩ := exec_encode payload flag ptype cmd s
    cases hu.symm.trans h
    exact Or.inl ⟨rfl, hr, _, ho⟩
  | decode frame =>
    cases (exec_decode frame s).symm.trans h
    exact Or.inr (Or.inl ⟨frame, rfl, rfl⟩)
  | _ => exact absurd rfl hp

theorem exec_completes (i : Instr) (s : State) : ∃ t, exec i s = .next t := by
  by_cases hp : i.port = .rsm
  · rcases exec_rsm hp s with ⟨chunk, he⟩ | he <;> exact ⟨_, he⟩
  cases i with
  | encode payload flag ptype cmd => exact (exec_encode payload flag ptype cmd s).imp fun _ h => h.1
  | decode frame => exact ⟨_, exec_decode frame s⟩
  | _ => exact absurd rfl hp

theorem step_nil {s : State} (h : s.inputs = []) : step s = .next (goIdle s) := by
  unfold step transact
  rw [h]

theorem step_cons {s : State} {x : Transaction} {rest : List Transaction} (h : s.inputs = x :: rest) :
    step s = runSelected (decode x) { s with inputs := rest } := by
  unfold step transact
  rw [h]

/-- Everything a step's next state can be: idle, the `reset` input, or an operation's. -/
theorem step_cases {s t : State} (h : step s = .next t) :
    (t.rsm = s.rsm ∧ t.out = Outputs.idle) ∨
    (∃ x rest, s.inputs = x :: rest ∧ decode x = .reset ∧ t = resetRsm { s with inputs := rest }) ∨
    ∃ x rest i, s.inputs = x :: rest ∧ decode x = .op i ∧ exec i { s with inputs := rest } = .next t := by
  cases hi : s.inputs with
  | nil =>
    cases (step_nil hi).symm.trans h
    exact Or.inl ⟨rfl, rfl⟩
  | cons x rest =>
    rw [step_cons hi] at h
    cases hd : decode x with rw [hd] at h
    | op i => exact Or.inr (Or.inr ⟨x, rest, i, rfl, hd, h⟩)
    | reset =>
      cases h
      exact Or.inr (Or.inl ⟨x, rest, rfl, hd, rfl⟩)
    | idle =>
      cases h
      exact Or.inl ⟨rfl, rfl⟩
    | rejected why => cases h

/-- A step stops only where the decoder rejects its transaction. -/
theorem step_next_or_rejected (s : State) : (∃ t, step s = .next t) ∨
    ∃ t rest why, s.inputs = t :: rest ∧ decode t = .rejected why ∧ step s = .refused (.notPresentable why) := by
  cases hi : s.inputs with
  | nil => exact Or.inl ⟨_, step_nil hi⟩
  | cons x rest =>
    rw [step_cons hi]
    cases hd : decode x with
    | op i => exact Or.inl (exec_completes i _)
    | reset => exact Or.inl ⟨_, rfl⟩
    | idle => exact Or.inl ⟨_, rfl⟩
    | rejected why => exact Or.inr ⟨x, rest, why, rfl, hd, rfl⟩

/-! ## The reassembler within the invariants (10_state.md R24) -/

theorem Rsm.inv_reset : Rsm.reset.Inv := ⟨fun _ => ⟨rfl, by decide⟩, nofun⟩

theorem Rsm.Inv.seeking {r : Rsm} (h : r.Inv) (hs : r.rsState = .seekingHeader) :
    r.rsExpected = 0 ∧ r.acc.length ≤ 7 := h.1 hs

theorem Rsm.Inv.reading {r : Rsm} (h : r.Inv) (hs : r.rsState = .readingBody) :
    9 ≤ r.rsExpected.toNat ∧ r.rsExpected.toNat ≤ 1024 ∧ 8 ≤ r.acc.length ∧
    r.acc.length < r.rsExpected.toNat ∧ frameLen r.acc = r.rsExpected.toNat := h.2 hs

theorem Rsm.inv_seeking (acc : List Byte) (h : acc.length ≤ 7) :
    Rsm.Inv { rsState := .seekingHeader, rsExpected := 0, acc := acc } := ⟨fun _ => ⟨rfl, h⟩, nofun⟩

/-- 10_state.md R24 item 3. -/
theorem Rsm.Inv.acc_length_le {r : Rsm} (h : r.Inv) : r.acc.length ≤ 1023 := by
  cases hs : r.rsState with
  | seekingHeader =>
    have := h.seeking hs
    omega
  | readingBody =>
    have := h.reading hs
    omega

theorem Rsm.Inv.rsExpected_le {r : Rsm} (h : r.Inv) : r.rsExpected.toNat ≤ 1024 := by
  cases hs : r.rsState with
  | seekingHeader => simp [(h.seeking hs).1]
  | readingBody => exact (h.reading hs).2.1

/-- Everything one RS.PUSH can do within the invariants, `held` being the bytes after the append: the rows of
42_reassembler.md R170. -/
theorem pushByte_cases {r : Rsm} (h : r.Inv) (b : Byte) {held : List Byte} (hh : held = r.acc ++ [b]) :
    (r.rsState = .seekingHeader ∧ held.length < 8 ∧
      pushByte b r = ({ rsState := .seekingHeader, rsExpected := 0, acc := held }, RsOut.idle)) ∨
    (r.rsState = .seekingHeader ∧ held.length = 8 ∧ (frameLen held < 8 ∨ 1024 < frameLen held) ∧
      pushByte b r =
        ({ rsState := .seekingHeader, rsExpected := 0, acc := held.drop 1 }, { RsOut.idle with ev := .resync })) ∨
    (r.rsState = .seekingHeader ∧ held.length = 8 ∧ frameLen held = 8 ∧
      pushByte b r = (Rsm.reset, { RsOut.idle with ev := .drop, err := some .malformedFrame })) ∨
    (r.rsState = .seekingHeader ∧ held.length = 8 ∧ 9 ≤ frameLen held ∧ frameLen held ≤ 1024 ∧
      pushByte b r =
        ({ rsState := .readingBody, rsExpected := BitVec.ofNat 11 (frameLen held), acc := held },
          { RsOut.idle with ev := .header })) ∨
    (r.rsState = .readingBody ∧ held.length < r.rsExpected.toNat ∧
      pushByte b r =
        ({ rsState := .readingBody, rsExpected := r.rsExpected, acc := held }, RsOut.idle)) ∨
    (r.rsState = .readingBody ∧ held.length = r.rsExpected.toNat ∧ frameLen held = held.length ∧
      9 ≤ held.length ∧ held.length ≤ 1024 ∧
      pushByte b r = (Rsm.reset, reportFrame held RsOut.idle)) := by
  have hlen : held.length = r.acc.length + 1 := by simp [hh]
  subst hh
  cases hs : r.rsState with
  | seekingHeader =>
    obtain ⟨he, h7⟩ := h.seeking hs
    have hr : r = { rsState := .seekingHeader, rsExpected := 0, acc := r.acc } := by rw [← hs, ← he]
    have happ : accAppend b r = { rsState := .seekingHeader, rsExpected := 0, acc := r.acc ++ [b] } := by
      rw [accAppend, ← hs, ← he]
    by_cases h8 : (r.acc ++ [b]).length < 8
    · refine Or.inl ⟨rfl, h8, ?_⟩
      rw [pushByte_store (Or.inl ⟨hs, h8⟩), happ]
    have hl : r.acc.length = 7 := by omega
    have hl' : (r.acc ++ [b]).length = 8 := by omega
    refine Or.inr ?_
    cases hv : lenValid (frameLen (r.acc ++ [b])) with
    | false =>
      refine Or.inl ⟨rfl, hl', ?_, ?_⟩
      · have := (lenValid_iff (frameLen (r.acc ++ [b]))).not.1 (by simp [hv])
        omega
      · rw [pushByte_noise hs hl hv, happ]
        rfl
    | true =>
      have hv' := (lenValid_iff _).1 hv
      by_cases h8 : frameLen (r.acc ++ [b]) = 8
      · exact Or.inr (Or.inl ⟨rfl, hl', h8, pushByte_eight hs hl h8⟩)
      · exact Or.inr (Or.inr (Or.inl ⟨rfl, hl', by omega, hv'.2, pushByte_header hs hl hv (by omega)⟩))
  | readingBody =>
    obtain ⟨h9, h1024, h8, hlt, hf⟩ := h.reading hs
    rw [← frameLen_append r.acc [b] h8] at hf
    refine Or.inr (Or.inr (Or.inr (Or.inr ?_)))
    by_cases hl : (r.acc ++ [b]).length < r.rsExpected.toNat
    · refine Or.inl ⟨rfl, hl, ?_⟩
      rw [pushByte_store (Or.inr ⟨hs, hl⟩), accAppend, hs]
    · exact Or.inr ⟨rfl, by omega, by omega, by omega, by omega, pushByte_extract hs (by omega)⟩

theorem pushByte_inv {r : Rsm} (h : r.Inv) (b : Byte) : (pushByte b r).1.Inv := by
  rcases pushByte_cases h b rfl with ⟨-, hl, he⟩ | ⟨-, hl, -, he⟩ | ⟨-, -, -, he⟩ | ⟨-, hl, h9, h1024, he⟩ |
    ⟨hs, hl, he⟩ | ⟨-, -, -, -, -, he⟩ <;> rw [he]
  · exact Rsm.inv_seeking _ (by omega)
  · exact Rsm.inv_seeking _ (by rw [List.length_drop]; omega)
  · exact Rsm.inv_reset
  · have hv := rsExpected_toNat ((lenValid_iff (frameLen (r.acc ++ [b]))).2 ⟨by omega, h1024⟩)
    refine ⟨nofun, fun _ => ?_⟩
    dsimp only
    rw [hv]
    omega
  · obtain ⟨h9, h1024, h8, -, hf⟩ := h.reading hs
    refine ⟨nofun, fun _ => ⟨h9, h1024, ?_, hl, ?_⟩⟩
    · rw [List.length_append]
      omega
    · rw [frameLen_append _ _ h8, hf]
  · exact Rsm.inv_reset

theorem feedBytes_inv {r : Rsm} (h : r.Inv) (chunk : List Byte) : (feedBytes chunk r).1.Inv := by
  induction chunk generalizing r with
  | nil => exact h
  | cons b bs ih => exact ih (pushByte_inv h b)

theorem exec_inv {i : Instr} {s t : State} (hs : s.Inv) (h : exec i s = .next t) : t.Inv := by
  rcases exec_cases h with ⟨-, hr, -⟩ | ⟨_, -, rfl⟩ | ⟨-, chunk, rfl⟩ | ⟨-, rfl⟩
  · rw [State.Inv, hr]
    exact hs
  · exact hs
  · exact feedBytes_inv hs chunk
  · exact Rsm.inv_reset

theorem step_inv {s t : State} (hs : s.Inv) (h : step s = .next t) : t.Inv := by
  rcases step_cases h with ⟨hr, -⟩ | ⟨_, _, -, -, rfl⟩ | ⟨_, rest, _, -, -, he⟩
  · rw [State.Inv, hr]
    exact hs
  · exact Rsm.inv_reset
  · exact exec_inv (s := { s with inputs := rest }) hs he

/-! ## Packets on the ports -/

/-- The flag is the low half of byte 0 (30_encoding.md R82). -/
theorem frameFlag_eq (frame : List Byte) : frameFlag frame = BitVec.ofNat 4 ((frame.getD 0 0).toNat % 16) := by
  apply BitVec.eq_of_toNat_eq
  change (hdrFlag (le64 (frame.take 8))).toNat = (BitVec.ofNat 4 _).toNat
  rw [hdrFlag_toNat, le64_toNat, BitVec.toNat_ofNat]
  cases frame with
  | nil => rfl
  | cons b bs =>
    rw [List.take_succ_cons, leNat_cons, List.getD_cons_zero]
    omega

@[simp] theorem packetOfFrame_payload (frame : List Byte) : (packetOfFrame frame).packet.payload = frame.drop 10 := rfl

@[simp] theorem packetOfFrame_flag (frame : List Byte) :
    (packetOfFrame frame).flag = BitVec.ofNat 4 ((frame.getD 0 0).toNat % 16) := frameFlag_eq frame

/-- A packet's payload is what stands behind the first ten bytes of the frame. -/
theorem decodeFrame_payload_length {frame : List Byte} {d : Delivery} (h : decodeFrame frame = .packet d) :
    d.packet.payload.length = frame.length - 10 := by
  rcases decodeFrame_cases frame with ⟨-, he⟩ | ⟨-, -, he⟩ | ⟨-, -, -, he⟩ | ⟨-, -, -, he⟩ <;> rw [he] at h <;> cases h
  exact List.length_drop

/-- What an extracted frame reports, with the exact cause of each (42_reassembler.md R166, R169). -/
theorem reportFrame_cases {frame : List Byte} (hl : frameLen frame = frame.length) (h9 : 9 ≤ frame.length) (o : RsOut) :
    ((frame.length = 9 ∨ 1 < (frame.getD 8 0).toNat) ∧
      reportFrame frame o = { o with ev := .drop, err := some .malformedFrame }) ∨
    (10 ≤ frame.length ∧ (frame.getD 8 0).toNat ≤ 1 ∧
      reportFrame frame o = { ev := .packet, err := none, pkt := some (packetOfFrame frame) }) := by
  rcases decodeFrame_cases frame with ⟨h8, -⟩ | ⟨-, hne, -⟩ | ⟨-, -, hc, he⟩ | ⟨h10, -, ht, he⟩
  · omega
  · exact absurd hl.symm hne
  · refine Or.inl ⟨hc.imp (fun _ => by omega) id, ?_⟩
    rw [reportFrame, he]
    rfl
  · refine Or.inr ⟨h10, ht, ?_⟩
    rw [reportFrame, he]

theorem pushByte_payload_le {r : Rsm} (h : r.Inv) (b : Byte) {d : Delivery} (hd : (pushByte b r).2.pkt = some d) :
    d.packet.payload.length ≤ 1014 := by
  rcases pushByte_cases h b rfl with ⟨-, -, he⟩ | ⟨-, -, -, he⟩ | ⟨-, -, -, he⟩ | ⟨-, -, -, -, he⟩ | ⟨-, -, he⟩ |
    ⟨-, -, hf, h9, h1024, he⟩ <;> rw [he] at hd
  case inr.inr.inr.inr.inr =>
    rcases reportFrame_cases hf h9 RsOut.idle with ⟨-, hr⟩ | ⟨-, -, hr⟩ <;> rw [hr] at hd <;> cases hd
    rw [packetOfFrame_payload, List.length_drop]
    omega
  all_goals cases hd

theorem feedBytes_payload_le {r : Rsm} (h : r.Inv) (chunk : List Byte) :
    ∀ d ∈ packetsOf (feedBytes chunk r).2, d.packet.payload.length ≤ 1014 := by
  induction chunk generalizing r with
  | nil => exact nofun
  | cons b bs ih =>
    intro d hd
    obtain ⟨o, ho, hp⟩ := List.mem_filterMap.1 hd
    rcases List.mem_cons.1 ho with rfl | ho
    · exact pushByte_payload_le h b hp
    · exact ih (pushByte_inv h b) d (List.mem_filterMap.2 ⟨o, ho, hp⟩)

/-- The packet that the RSM port shows is one of the transaction's packets. -/
theorem Outputs.lastRs_pkt_mem {o : Outputs} {d : Delivery} (h : o.lastRs.pkt = some d) : d ∈ packetsOf o.rs := by
  unfold Outputs.lastRs at h
  cases hl : o.rs.getLast? with rw [hl] at h
  | none => cases h
  | some x => exact List.mem_filterMap.2 ⟨x, List.mem_of_getLast? hl, h⟩

/-- Every packet a step puts on the DEC port came from a frame of at most 1024 bytes, and every one on the RSM port from an
extracted frame. -/
theorem step_payload_le {s t : State} (hs : s.Inv) (h : step s = .next t) :
    (∀ p, t.decPkt = some p → p.payload.length ≤ 1014) ∧ ∀ d ∈ packetsOf t.out.rs, d.packet.payload.length ≤ 1014 := by
  rcases step_cases h with ⟨-, ho⟩ | ⟨_, _, -, -, rfl⟩ | ⟨x, rest, i, -, hx, he⟩
  · simp [State.decPkt, ho, Outputs.idle]
  · simp [State.decPkt, Outputs.idle]
  · rcases exec_cases he with ⟨-, -, r, ho⟩ | ⟨frame, rfl, rfl⟩ | ⟨-, chunk, rfl⟩ | ⟨-, rfl⟩
    · simp [State.decPkt, ho]
    · refine ⟨fun p hp => ?_, nofun⟩
      have hl : frame.length ≤ 1024 := of_decide_eq_true (decode_op_wellFormed hx)
      cases hd : decodeFrame frame with simp [State.decPkt, hd] at hp
      | packet d =>
        rw [← hp, decodeFrame_payload_length hd]
        omega
    · exact ⟨by simp [State.decPkt, Outputs.idle], feedBytes_payload_le (r := s.rsm) hs chunk⟩
    · simp [State.decPkt, Outputs.idle]

/-- A payload's length within the port's range loses nothing to the 11 bits. -/
theorem ofNat_portLenW_toNat {n : Nat} (h : n ≤ 1024) : (BitVec.ofNat 11 n).toNat = n := by
  rw [BitVec.toNat_ofNat, Nat.mod_eq_of_lt (by omega)]

/-! ## What the RSM port shows after one push (10_state.md R36 to R38) -/

@[simp] theorem giveRsm_rsEv (r : Rsm) (o : RsOut) (s : State) : (giveRsm r [o] s).rsEv = o.ev.code := rfl
@[simp] theorem giveRsm_rsErr (r : Rsm) (o : RsOut) (s : State) : (giveRsm r [o] s).rsErr = errCode o.err := rfl
@[simp] theorem giveRsm_rsPktValid (r : Rsm) (o : RsOut) (s : State) : (giveRsm r [o] s).rsPktValid = o.pkt.isSome := rfl
@[simp] theorem giveRsm_rsPkt (r : Rsm) (o : RsOut) (s : State) :
    (giveRsm r [o] s).rsPkt = o.pkt.map Delivery.packet := rfl
@[simp] theorem giveRsm_rsPktPayloadLen (r : Rsm) (o : RsOut) (s : State) :
    (giveRsm r [o] s).rsPktPayloadLen = (o.pkt.map Delivery.packet).map fun p => BitVec.ofNat 11 p.payload.length := rfl
@[simp] theorem giveRsm_rsPktFlag (r : Rsm) (o : RsOut) (s : State) :
    (giveRsm r [o] s).rsPktFlag = o.pkt.map Delivery.flag := rfl

/-- A push shows a packet exactly with the packet event. -/
theorem pushByte_pkt_isSome_iff {r : Rsm} (h : r.Inv) (b : Byte) :
    (pushByte b r).2.pkt.isSome = true ↔ (pushByte b r).2.ev.code = 3 := by
  rcases pushByte_cases h b rfl with ⟨-, -, he⟩ | ⟨-, -, -, he⟩ | ⟨-, -, -, he⟩ | ⟨-, -, -, -, he⟩ | ⟨-, -, he⟩ |
    ⟨-, -, hf, h9, -, he⟩ <;> rw [he]
  case inr.inr.inr.inr.inr =>
    rcases reportFrame_cases hf h9 RsOut.idle with ⟨-, hr⟩ | ⟨-, -, hr⟩ <;> rw [hr] <;> simp [RsOut.idle, RsEvent.code]
  all_goals simp [RsOut.idle, RsEvent.code]

/-- In SeekingHeader: stored, discarded, a header, or the empty frame of eight bytes that is dropped. -/
theorem push_shows_seeking {s : State} {b : Byte} {held : List Byte} {t : State} (h : s.Inv)
    (hs : s.rsm.rsState = .seekingHeader) (hh : held = s.rsm.acc ++ [b]) (ht : exec (.rsPush b) s = .next t) :
    (held.length < 8 → t.rsEv = 0 ∧ t.rsErr = 0) ∧
    (held.length = 8 → frameLen held < 8 ∨ 1024 < frameLen held → t.rsEv = 1 ∧ t.rsErr = 0) ∧
    (held.length = 8 → 9 ≤ frameLen held → frameLen held ≤ 1024 → t.rsEv = 2 ∧ t.rsErr = 0) ∧
    (held.length = 8 → frameLen held = 8 → t.rsEv = 4 ∧ t.rsErr = 4) := by
  cases (exec_rsPush b s).symm.trans ht
  rw [giveRsm_rsEv, giveRsm_rsErr]
  rcases pushByte_cases h b hh with ⟨-, hl, he⟩ | ⟨-, hl, hv, he⟩ | ⟨-, hl, h8, he⟩ | ⟨-, hl, h9, h1024, he⟩ |
    ⟨hr, -⟩ | ⟨hr, -⟩
  case inr.inr.inr.inr.inl | inr.inr.inr.inr.inr => exact absurd (hs.symm.trans hr) nofun
  all_goals
    rw [he]
  · exact ⟨fun _ => ⟨rfl, rfl⟩, by omega, by omega, by omega⟩
  · exact ⟨by omega, fun _ _ => ⟨rfl, rfl⟩, by omega, by omega⟩
  · exact ⟨by omega, by omega, by omega, fun _ _ => ⟨rfl, rfl⟩⟩
  · exact ⟨by omega, by omega, fun _ _ _ => ⟨rfl, rfl⟩, by omega⟩

/-- In ReadingBody: stored, or with the last byte dropped or delivered. -/
theorem push_shows_reading {s : State} {b : Byte} {held : List Byte} {t : State} (h : s.Inv)
    (hs : s.rsm.rsState = .readingBody) (hh : held = s.rsm.acc ++ [b]) (ht : exec (.rsPush b) s = .next t) :
    (held.length < s.rsm.rsExpected.toNat → t.rsEv = 0 ∧ t.rsErr = 0) ∧
    (held.length = s.rsm.rsExpected.toNat → held.length = 9 ∨ 1 < (held.getD 8 0).toNat →
      t.rsEv = 4 ∧ t.rsErr = 4) ∧
    (held.length = s.rsm.rsExpected.toNat → 10 ≤ held.length → (held.getD 8 0).toNat ≤ 1 →
      t.rsEv = 3 ∧ t.rsErr = 0 ∧
      t.rsPkt = some
        { userField := held.getD 9 0, payload := held.drop 10
          payloadType := if held.getD 8 0 = 0 then .none else .string } ∧
      (∃ n, t.rsPktPayloadLen = some n ∧ n.toNat = held.length - 10) ∧
      t.rsPktFlag = some (BitVec.ofNat 4 ((held.getD 0 0).toNat % 16))) := by
  cases (exec_rsPush b s).symm.trans ht
  rcases pushByte_cases h b hh with ⟨hr, -⟩ | ⟨hr, -⟩ | ⟨hr, -⟩ | ⟨hr, -⟩ | ⟨-, hl, he⟩ | ⟨-, hl, hf, h9, h1024, he⟩
  case inl | inr.inl | inr.inr.inl | inr.inr.inr.inl => exact absurd (hs.symm.trans hr) nofun
  · rw [he]
    exact ⟨fun _ => ⟨rfl, rfl⟩, by omega, by omega⟩
  · rcases reportFrame_cases hf h9 RsOut.idle with ⟨hc, hr⟩ | ⟨h10, ht, hr⟩ <;> rw [he, hr]
    · exact ⟨by omega, fun _ _ => ⟨rfl, rfl⟩, by omega⟩
    · have hn : (held.drop 10).length ≤ 1024 := by
        rw [List.length_drop]
        omega
      refine ⟨by omega, by omega, fun _ _ _ => ⟨rfl, rfl, rfl, ⟨_, rfl, ?_⟩, congrArg some (packetOfFrame_flag held)⟩⟩
      exact (ofNat_portLenW_toNat hn).trans List.length_drop

/-! ## What the DEC port shows (10_state.md R34) -/

/-- With an error the DEC port shows the error's code and nothing else. -/
theorem decode_shows_error {frame : List Byte} {s t : State} {e : ErrKind} (h : decodeFrame frame = .error e)
    (ht : exec (.decode frame) s = .next t) :
    t.decErr = some e.code ∧ t.decPkt = none ∧ t.decPayloadLen = none ∧ t.decFlag = none := by
  rw [exec_decode, h] at ht
  cases ht
  exact ⟨rfl, rfl, rfl, rfl⟩

/-- With a packet the DEC port shows the code 0 and every output of the packet. -/
theorem decode_shows_packet {frame : List Byte} {s t : State} {d : Delivery} (h : decodeFrame frame = .packet d)
    (ht : exec (.decode frame) s = .next t) :
    t.decErr = some 0 ∧ t.decPkt = some d.packet ∧
      t.decPayloadLen = some (BitVec.ofNat 11 d.packet.payload.length) ∧ t.decFlag = some d.flag := by
  rw [exec_decode, h] at ht
  cases ht
  exact ⟨rfl, rfl, rfl, rfl⟩

end Sys2Proof.Machine

/-! ## The statements -/

namespace Sys2Proof.Machine

/-- Settles O1, by cases on the instruction; a wire pattern's bytes give back the fields of their header word. -/
theorem decodeInvertsEncode : Obligations.DecodeInvertsEncode := fun _ h => decode_encode h

/-- Settles O17: R24 holds after every RS.PUSH (the rows of R170), so after every chunk, operation and step. -/
theorem stepKeepsInvariants : Obligations.StepKeepsInvariants := fun _ _ hs h => step_inv hs h

/-- Settles O2, by cases on the port the operation came from. -/
theorem selectedOperationIsWellFormed : Obligations.SelectedOperationIsWellFormed := fun _ _ h => decode_op_wellFormed h

/-- Settles O18: R24 bounds the registers after an operation; inside a push no round makes the accumulator longer. -/
theorem accumulatorStaysBounded : Obligations.AccumulatorStaysBounded := by
  intro s hs
  refine ⟨fun i t h => ?_, fun b rounds o => ?_⟩
  · have ht : t.rsm.Inv := exec_inv hs h
    have hl := ht.acc_length_le
    exact ⟨ht, hl, ht.rsExpected_le, hl.trans (by decide)⟩
  · exact rsmLoop_wf rounds _ o (accAppend_wf b s.rsm (Nat.lt_succ_of_le (Rsm.Inv.acc_length_le hs)))

/-- Settles O26, by the four outcomes of DECODE in the order of its checks. -/
theorem decodePortsShowOutcome : Obligations.DecodePortsShowOutcome := by
  intro frame s
  refine ⟨_, exec_decode frame s, rfl, rfl, rfl, rfl, rfl, rfl, rfl, rfl, ?_⟩
  rcases decodeFrame_cases frame with ⟨h8, he⟩ | ⟨h8, hl, he⟩ |
    ⟨h8, hl, (hc : frame.length < 10 ∨ 1 < (frame.getD 8 0).toNat), he⟩ |
    ⟨h10, hl, (hp : (frame.getD 8 0).toNat ≤ 1), he⟩
  · obtain ⟨herr, hnone⟩ := decode_shows_error he (exec_decode frame s)
    rw [herr]
    exact ⟨fun _ => hnone, iff_of_true rfl h8, iff_of_false (by decide) (by omega), iff_of_false (by decide) (by omega),
      iff_of_false (by decide) (by omega), nofun⟩
  · obtain ⟨herr, hnone⟩ := decode_shows_error he (exec_decode frame s)
    rw [herr]
    exact ⟨fun _ => hnone, iff_of_false (by decide) (by omega), iff_of_true rfl ⟨h8, hl⟩, iff_of_false (by decide) (by omega),
      iff_of_false (by decide) (by omega), nofun⟩
  · obtain ⟨herr, hnone⟩ := decode_shows_error he (exec_decode frame s)
    rw [herr]
    exact ⟨fun _ => hnone, iff_of_false (by decide) (by omega), iff_of_false (by decide) (by omega),
      iff_of_true rfl ⟨h8, hl, by omega⟩, iff_of_false (by decide) (by omega), nofun⟩
  · obtain ⟨herr, hpkt, hlen, hflag⟩ := decode_shows_packet he (exec_decode frame s)
    rw [herr, hpkt, hlen, hflag]
    refine ⟨fun h => absurd rfl h, iff_of_false (by decide) (by omega), iff_of_false (by decide) (by omega),
      iff_of_false (by decide) (by omega), iff_of_true rfl ⟨h10, hl, hp⟩, fun _ =>
        ⟨rfl, congrArg some (packetOfFrame_flag frame), fun h => ⟨_, rfl, ?_⟩⟩⟩
    rw [decodeFrame_payload_length he, ofNat_portLenW_toNat (by omega)]

/-- Settles O27: a packet on the DEC port came from a frame of at most 1024 bytes, and one on the RSM port from an extracted
frame, so their payloads fit the 11 bits of the length outputs. -/
theorem portPayloadsAreAtMost1014Bytes : Obligations.PortPayloadsAreAtMost1014Bytes := by
  intro s t hs h
  obtain ⟨hdec, hrs⟩ := step_payload_le hs h
  refine ⟨fun p hp => ⟨hdec p hp, _, congrArg (Option.map _) hp, ?_⟩, hrs, fun p hp => ⟨_, congrArg (Option.map _) hp, ?_⟩⟩
  · exact ofNat_portLenW_toNat ((hdec p hp).trans (by decide))
  · obtain ⟨d, hd, rfl⟩ := Option.map_eq_some_iff.1 hp
    exact ofNat_portLenW_toNat ((hrs d (Outputs.lastRs_pkt_mem hd)).trans (by decide))

/-- Settles O33: the rows of R170 as the RSM port shows them. -/
theorem pushPortsShowEvent : Obligations.PushPortsShowEvent := by
  intro s b held hs hh
  refine ⟨_, exec_rsPush b s, rfl, rfl, rfl, rfl, pushByte_pkt_isSome_iff hs b, fun hv => ?_,
    fun hr => push_shows_seeking hs hr hh (exec_rsPush b s), fun hr => push_shows_reading hs hr hh (exec_rsPush b s)⟩
  have hn : (pushByte b s.rsm).2.pkt = none := by simpa using hv
  simp [hn]

/-- Settles O3, by evaluating the decoder on each of the written words. -/
theorem writtenWordsDecode : Obligations.WrittenWordsDecode := by
  unfold Obligations.WrittenWordsDecode
  decide

/-- Settles O9: with the inputs given, the decoder's priority chain evaluates. -/
theorem rsmInputPriority : Obligations.RsmInputPriority := by
  refine ⟨fun s reset clear valid b rest hi => ?_, fun s hi => step_nil hi⟩
  rw [step_cons hi]
  refine ⟨?_, ?_, ?_, ?_⟩ <;> rintro rfl
  · rfl
  · rintro rfl
    rfl
  · rintro rfl rfl
    rfl
  · rintro rfl rfl
    rfl

/-- Settles O10: the step follows the decoder, and only the two length inputs reject. -/
theorem onlyExcludedTransactionsStop : Obligations.OnlyExcludedTransactionsStop := by
  refine ⟨step_next_or_rejected, fun payload flag ptype cmd => ?_, fun frame => ?_, selectRsm_ne_rejected,
    fun _ _ => ⟨nofun, nofun⟩⟩
  · rcases selectEnc_cases payload flag ptype cmd with ⟨hl, he⟩ | ⟨hl, he⟩ <;> simp [decode, he] <;> omega
  · rcases selectDec_cases frame with ⟨hl, he⟩ | ⟨hl, he⟩ <;> simp [decode, he] <;> omega

/-- Settles O11: an admitted length is below the modulus of its input. -/
theorem lengthInputsCountTheBytes : Obligations.LengthInputsCountTheBytes := by
  refine ⟨fun payload flag ptype cmd h => ⟨?_, selectEnc_of_le h flag ptype cmd⟩, fun frame h => ⟨?_, selectDec_of_le h⟩⟩
  · rw [encLen_toNat]
    omega
  · rw [decLen_toNat]
    omega

/-- Settles O14: an idle step, ENCODE and DECODE keep the registers; `reset` and every other operation came from the RSM
port. -/
theorem onlyRsmTransactionsChangeTheReassembler : Obligations.OnlyRsmTransactionsChangeTheReassembler := by
  intro s t h hne
  rcases step_cases h with ⟨hr, -⟩ | ⟨x, rest, hi, hx, -⟩ | ⟨x, rest, i, hi, hx, he⟩
  · exact absurd hr hne
  · exact ⟨x, rest, hi, decode_reset_port hx⟩
  · refine ⟨x, rest, hi, (decode_op_port hx).symm.trans ?_⟩
    rcases exec_cases he with ⟨-, hr, -⟩ | ⟨frame, -, rfl⟩ | ⟨hp, -⟩ | ⟨hp, -⟩
    · exact absurd hr hne
    · exact absurd rfl hne
    · exact hp
    · exact hp

/-- Settles O16: every field and view of the reset state evaluates. -/
theorem resetState : Obligations.ResetState :=
  ⟨rfl, rfl, rfl, rfl, rfl, rfl, rfl, rfl, rfl, Rsm.inv_reset⟩

/-- Settles O19: within R24 at most 1023 bytes are held, which 11 bits carry. -/
theorem statusOutputsShowState : Obligations.StatusOutputsShowState := by
  intro s hs
  have hl := Rsm.Inv.acc_length_le hs
  refine ⟨ofNat_portLenW_toNat (by omega), rfl, ?_, ?_⟩ <;> unfold State.stState <;> cases s.rsm.rsState <;> decide

/-- Settles O20, by cases on the event and on the error. -/
theorem outputCodes : Obligations.OutputCodes := by
  refine ⟨rfl, rfl, rfl, rfl, rfl, rfl, rfl, rfl, rfl, rfl, fun e => ?_, fun e => ?_⟩
  · cases e <;> decide
  · rcases e with _ | e
    · decide
    · cases e <;> decide

end Sys2Proof.Machine

/-! PROOFS. The statements about the byte streams and the transport (20_memory.md). -/

namespace Sys2Proof.Machine

/-! ## Bytes and the wire patterns that name them (30_encoding.md R81, R87, R101) -/

theorem exec_rsFeed (chunk : List Byte) (s : State) : exec (.rsFeed chunk) s = .next (giveChunk chunk s) := rfl

theorem frameBytes_getD_ptype (rsvd : BitVec 15) (flag : BitVec 4) (ptype cmd : Byte) (payload : List Byte) :
    (frameBytes rsvd flag ptype cmd payload).getD 8 0 = ptype := by
  simp [frameBytes]

/-- A frame of at most 1014 payload bytes meets the length condition of its class. -/
theorem frameBytes_lengths (rsvd : BitVec 15) (flag : BitVec 4) (ptype cmd : Byte) {payload : List Byte}
    (h : payload.length ≤ 1014) :
    10 ≤ (frameBytes rsvd flag ptype cmd payload).length ∧ (frameBytes rsvd flag ptype cmd payload).length ≤ 1024 ∧
      frameLen (frameBytes rsvd flag ptype cmd payload) = (frameBytes rsvd flag ptype cmd payload).length := by
  rw [frameLen_frameBytes _ _ _ _ _ (by omega), frameBytes_length]
  omega

/-- A header pattern carries all bits of its eight bytes, so it acts as those bytes. -/
theorem exec_wireHeader {h : List Byte} (h8 : h.length = 8) (s : State) :
    exec (wireHeader h) s = exec (.rsFeed h) s := by
  rw [exec_rsFeed]
  rcases wireHeader_cases h with ⟨h0, hl, he⟩ | ⟨-, he⟩ <;> rw [he]
  · have hlen : ((hdrLen (le64 h)).setWidth 11).setWidth 45 = hdrLen (le64 h) :=
      BitVec.eq_of_toNat_eq (by rw [setWidth_lenW_toNat, setWidth_toNat_of_txLen hl])
    change Host.Outcome.next (giveChunk (bytesLe64 (hdrWord 0 (((hdrLen (le64 h)).setWidth 11).setWidth 45) _)) s) = _
    rw [hlen, ← h0, hdrWord_fields, bytesLe64_le64 h h8]
  · change Host.Outcome.next (giveChunk (bytesLe64 (hdrWord _ _ _)) s) = _
    rw [hdrWord_fields, bytesLe64_le64 h h8]

/-- The frame patterns with the exact condition of each: the bytes are the named frame's, or they are no frame of a class. -/
theorem wireFrame_shape (bytes : List Byte) :
    (∃ rsvd flag cmd payload, payload.length ≤ 1014 ∧ bytes = frameBytes rsvd flag 0 cmd payload ∧
      wireFrame bytes = some (.frameNone rsvd flag cmd payload)) ∨
    (∃ rsvd flag cmd payload, payload.length ≤ 1014 ∧ bytes = frameBytes rsvd flag 1 cmd payload ∧
      wireFrame bytes = some (.frameString rsvd flag cmd payload)) ∨
    (¬ (10 ≤ bytes.length ∧ bytes.length ≤ 1024 ∧ frameLen bytes = bytes.length ∧ (bytes.getD 8 0).toNat ≤ 1) ∧
      wireFrame bytes = none) := by
  rcases wireFrame_cases bytes with ⟨ptype, cmd, payload, hd, hl, hmax, he⟩ | ⟨hn, he⟩
  · have hb := frameBytes_fields hd hl
    have hp : payload.length ≤ 1014 := by
      have := congrArg List.length hb
      rw [frameBytes_length] at this
      omega
    by_cases h0 : ptype = 0
    · subst h0
      exact Or.inl ⟨_, _, cmd, payload, hp, hb.symm, he.trans (wireClass_none _ _ _)⟩
    by_cases h1 : ptype = 1
    · subst h1
      exact Or.inr (Or.inl ⟨_, _, cmd, payload, hp, hb.symm, he.trans (wireClass_string _ _ _)⟩)
    refine Or.inr (Or.inr ⟨fun ⟨_, _, _, ht⟩ => ?_, ?_⟩)
    · rw [← hb, frameBytes_getD_ptype] at ht
      bv_omega
    · rw [he, wireClass, if_neg h0, if_neg h1]
  · exact Or.inr (Or.inr ⟨fun ⟨h10, hmax, hl, _⟩ => hn ⟨h10, hl, hmax⟩, he⟩)

/-! ## Chunks one after another (42_reassembler.md R171) -/

/-- A chunk in two pieces: the pieces one after the other, with the outputs of both on the port. -/
theorem giveChunk_append (xs ys : List Byte) (s : State) :
    giveChunk (xs ++ ys) s =
      { giveChunk ys (giveChunk xs s) with out := { Outputs.idle with rs := (feedBytes (xs ++ ys) s.rsm).2 } } := by
  simp only [giveChunk_eq_giveRsm, giveRsm, feedBytes_append, packetsOf_append, List.append_assoc]

theorem runOps_cons {i : Instr} {is : List Instr} {s t u : State} {outs : List RsOut} (hi : exec i s = .next t)
    (his : runOps is t = .next (u, outs)) : runOps (i :: is) s = .next (u, t.out.rs ++ outs) := by
  simp only [runOps, hi, his]

/-- Chunks fed one by one are their concatenation fed at once, but for the output field. -/
theorem runOps_rsFeed (chunks : List (List Byte)) (s : State) :
    ∃ t, runOps (chunks.map Instr.rsFeed) s = .next (t, (feedBytes chunks.flatten s.rsm).2) ∧
      { t with out := Outputs.idle } = { giveChunk chunks.flatten s with out := Outputs.idle } := by
  induction chunks generalizing s with
  | nil => exact ⟨s, rfl, by simp [giveChunk_eq_giveRsm, giveRsm]⟩
  | cons chunk chunks ih =>
    obtain ⟨t, hrun, ht⟩ := ih (giveChunk chunk s)
    refine ⟨t, ?_, ?_⟩
    · rw [List.map_cons, runOps_cons (exec_rsFeed chunk s) hrun, List.flatten_cons, feedBytes_append]
      rfl
    · rw [ht, List.flatten_cons, giveChunk_append]

/-- When each presented transaction is a chunk for the reassembler, every number of steps completes, with nothing left
waiting, and the chunks' concatenation has been fed. -/
theorem runEnv_feeds {env : Environment} {chunks : Nat → List Byte}
    (henv : ∀ n s, runSelected (decode (env n)) s = .next (giveChunk (chunks n) s)) (n : Nat) {s : State}
    (hs : s.inputs = []) :
    ∃ t, runEnv env n s = .next t ∧ t.inputs = [] ∧
      { t with out := Outputs.idle } = { giveChunk (readBytes chunks n) s with out := Outputs.idle } := by
  induction n with
  | zero => exact ⟨s, rfl, hs, by simp [giveChunk_eq_giveRsm, giveRsm, readBytes]⟩
  | succ n ih =>
    obtain ⟨t, hrun, hin, ht⟩ := ih
    refine ⟨giveChunk (chunks n) t, ?_, hin, ?_⟩
    · rw [runEnv_succ hrun, step_present hin, henv]
    · have hchunk := congrArg (fun u => { giveChunk (chunks n) u with out := Outputs.idle }) ht
      rw [readBytes_succ, giveChunk_append]
      exact hchunk

theorem runEnv_ofReads (chunks : Nat → List Byte) (n : Nat) {s : State} (hs : s.inputs = []) :
    ∃ t, runEnv (.ofReads chunks) n s = .next t ∧ t.inputs = [] ∧
      { t with out := Outputs.idle } = { giveChunk (readBytes chunks n) s with out := Outputs.idle } :=
  runEnv_feeds (fun _ _ => rfl) n hs

theorem runEnv_ofBytes (bytes : Nat → Byte) (n : Nat) {s : State} (hs : s.inputs = []) :
    ∃ t, runEnv (.ofBytes bytes) n s = .next t ∧ t.inputs = [] ∧
      { t with out := Outputs.idle } = { giveChunk ((List.range n).map bytes) s with out := Outputs.idle } := by
  rw [List.map_eq_flatMap]
  exact runEnv_feeds (chunks := fun n => [bytes n]) (fun _ _ => rfl) n hs

/-! ## A whole frame into the initial reassembler (42_reassembler.md R163, R164, R166) -/

/-- Below the announced length the bytes of a body are only stored. -/
theorem feedBytes_body (xs acc : List Byte) {n : BitVec 11} (h : acc.length + xs.length < n.toNat) :
    feedBytes xs { rsState := .readingBody, rsExpected := n, acc := acc } =
      ({ rsState := .readingBody, rsExpected := n, acc := acc ++ xs }, List.replicate xs.length RsOut.idle) := by
  induction xs generalizing acc with
  | nil => simp
  | cons x xs ih =>
    rw [List.length_cons] at h
    have hp : pushByte x { rsState := .readingBody, rsExpected := n, acc := acc } =
        ({ rsState := .readingBody, rsExpected := n, acc := acc ++ [x] }, RsOut.idle) :=
      pushByte_store (Or.inr ⟨rfl, by simp; omega⟩)
    rw [feedBytes_cons, hp, ih (acc ++ [x]) (by simp; omega)]
    simp [List.replicate_succ]

/-- Nine bytes or more: seven, the eighth, the body before its last byte, the last. -/
theorem exists_split_frame {frame : List Byte} (h9 : 9 ≤ frame.length) :
    ∃ xs b ys c, xs.length = 7 ∧ ys.length = frame.length - 9 ∧ frame = xs ++ b :: (ys ++ [c]) := by
  obtain ⟨b, rest, hb⟩ := List.exists_cons_of_length_pos (l := frame.drop 7) (by rw [List.length_drop]; omega)
  have hlen := congrArg List.length hb
  rw [List.length_drop, List.length_cons] at hlen
  rcases List.eq_nil_or_concat rest with rfl | ⟨ys, c, rfl⟩
  · rw [List.length_nil] at hlen
    omega
  · rw [List.concat_eq_append] at hb hlen
    rw [List.length_append, List.length_singleton] at hlen
    exact ⟨frame.take 7, b, ys, c, by rw [List.length_take]; omega, by omega, by rw [← hb, List.take_append_drop]⟩

/-- Bytes that announce their own number, 9 to 1024: a header with the eighth, a report with the last, nothing else, and the
reassembler is initial again. -/
theorem feedBytes_frame {frame : List Byte} (h9 : 9 ≤ frame.length) (hmax : frame.length ≤ 1024)
    (hl : frameLen frame = frame.length) :
    feedBytes frame Rsm.reset =
      (Rsm.reset,
        List.replicate 7 RsOut.idle ++ [{ ev := .header, err := none, pkt := none }] ++
          List.replicate (frame.length - 9) RsOut.idle ++ [reportFrame frame RsOut.idle]) := by
  obtain ⟨xs, b, ys, c, hx, hy, hf⟩ := exists_split_frame h9
  have hlen8 : frameLen (xs ++ [b]) = frame.length := by
    rw [← hl, hf, ← frameLen_append (xs ++ [b]) (ys ++ [c]) (by simp [hx]), List.append_assoc, List.singleton_append]
  have hv : lenValid (frameLen (xs ++ [b])) = true := (lenValid_iff _).2 (by omega)
  have hn : (BitVec.ofNat 11 (frameLen (xs ++ [b]))).toNat = frame.length := (rsExpected_toNat hv).trans hlen8
  have hfill : feedBytes xs Rsm.reset =
      ({ rsState := .seekingHeader, rsExpected := 0, acc := xs }, List.replicate 7 RsOut.idle) := by
    rw [← hx]
    exact feedBytes_fill xs [] (by simp [hx])
  have hheader := pushByte_header (b := b) (r := { rsState := .seekingHeader, rsExpected := 0, acc := xs }) rfl hx hv
    (by rw [hlen8]; exact h9)
  have hbody := feedBytes_body ys (xs ++ [b]) (n := BitVec.ofNat 11 (frameLen (xs ++ [b])))
    (by rw [hn]; simp [hx]; omega)
  have hlast := pushByte_extract (b := c)
    (r := { rsState := .readingBody, rsExpected := BitVec.ofNat 11 (frameLen (xs ++ [b])), acc := xs ++ [b] ++ ys }) rfl
    (by rw [hn]; simp [hx]; omega)
  rw [← hy]
  conv_lhs => rw [hf]
  rw [feedBytes_append, hfill, feedBytes_cons, hheader, feedBytes_append, hbody, feedBytes_cons, hlast]
  simp [hf, RsOut.idle]

/-! ## Frames as ENCODE produces them (40_encoder.md R127) -/

theorem plainFrame_length (payload : List Byte) (flag ptype cmd : Byte) :
    (plainFrame payload flag ptype cmd).length = 10 + payload.length := by
  simp [plainFrame]; omega

theorem frameLen_plainFrame {payload : List Byte} (h : payload.length ≤ 1014) (flag ptype cmd : Byte) :
    frameLen (plainFrame payload flag ptype cmd) = 10 + payload.length := by
  rw [← frameBytes_eq_plainFrame payload flag ptype cmd h, frameLen_frameBytes _ _ _ _ _ (by omega)]

theorem packetOfFrame_plainFrame (payload : List Byte) (flag ptype cmd : Byte) :
    packetOfFrame (plainFrame payload flag ptype cmd) = plainPacket payload flag ptype cmd := by
  have hflag : (packetOfFrame (plainFrame payload flag ptype cmd)).flag = BitVec.ofNat 4 (flag.toNat % 16) := by
    rw [packetOfFrame_flag]
    apply BitVec.eq_of_toNat_eq
    simp [plainFrame]
  exact congrArg (Delivery.mk _) hflag

theorem reportFrame_plainFrame {payload : List Byte} (h : payload.length ≤ 1014) {ptype : Byte} (ht : ptype.toNat ≤ 1)
    (flag cmd : Byte) (o : RsOut) :
    reportFrame (plainFrame payload flag ptype cmd) o =
      { ev := .packet, err := none, pkt := some (plainPacket payload flag ptype cmd) } := by
  have hlen := plainFrame_length payload flag ptype cmd
  rcases reportFrame_cases ((frameLen_plainFrame h flag ptype cmd).trans hlen.symm) (by omega) o with
    ⟨h9 | h1, -⟩ | ⟨-, -, he⟩
  · omega
  · exact absurd (show 1 < ptype.toNat from h1) (Nat.not_lt.2 ht)
  · rw [he, packetOfFrame_plainFrame]

/-- A valid frame into the initial reassembler gives exactly its packet, with the last byte. -/
theorem feedBytes_valid_frame {f : FrameFields} (hf : f.Valid) :
    feedBytes f.bytes Rsm.reset =
      (Rsm.reset,
        List.replicate 7 RsOut.idle ++ [{ ev := .header, err := none, pkt := none }] ++
          List.replicate (f.payload.length + 1) RsOut.idle ++ [{ ev := .packet, err := none, pkt := some f.delivery }]) := by
  obtain ⟨hp, ht⟩ := hf
  have hlen : f.bytes.length = 10 + f.payload.length := plainFrame_length _ _ _ _
  have hl : frameLen f.bytes = f.bytes.length := (frameLen_plainFrame hp _ _ _).trans hlen.symm
  have hbody : f.bytes.length - 9 = f.payload.length + 1 := by omega
  rw [feedBytes_frame (by omega) (by omega) hl, hbody, FrameFields.bytes, reportFrame_plainFrame hp ht, FrameFields.delivery]

theorem packetsOf_replicate_idle (n : Nat) : packetsOf (List.replicate n RsOut.idle) = [] := by
  simp [packetsOf, RsOut.idle]

/-- Valid frames back to back give their packets in order and leave the initial reassembler. -/
theorem feedBytes_valid_frames {fs : List FrameFields} (hfs : ∀ f ∈ fs, f.Valid) :
    (feedBytes (fs.map FrameFields.bytes).flatten Rsm.reset).1 = Rsm.reset ∧
      packetsOf (feedBytes (fs.map FrameFields.bytes).flatten Rsm.reset).2 = fs.map FrameFields.delivery := by
  induction fs with
  | nil => exact ⟨rfl, rfl⟩
  | cons f fs ih =>
    obtain ⟨hf, hrest⟩ := List.forall_mem_cons.1 hfs
    obtain ⟨hreset, hpackets⟩ := ih hrest
    rw [List.map_cons, List.flatten_cons, feedBytes_append, feedBytes_valid_frame hf]
    refine ⟨hreset, ?_⟩
    simp only [packetsOf_append, packetsOf_replicate_idle, hpackets]
    rfl

/-! ## The statements -/

/-- Settles O12: the bytes are a header word, the frame of a class, or neither; a pattern holds all bits of its bytes. -/
theorem wireTransactionsActAsTheirBytes : Obligations.WireTransactionsActAsTheirBytes := by
  intro bytes
  refine ⟨selectWire bytes, rfl, ?_⟩
  by_cases h8 : bytes.length = 8
  · rw [selectWire_header h8]
    refine ⟨exec_wireHeader h8, ?_⟩
    rcases wireHeader_cases bytes with ⟨-, -, he⟩ | ⟨-, he⟩ <;> rw [he]
    · exact ⟨iff_of_true (Or.inr ⟨_, _, rfl⟩) h8, iff_of_false nofun (by omega), iff_of_false nofun (by omega),
        iff_of_false nofun fun h => h.1 h8⟩
    · exact ⟨iff_of_true (Or.inl ⟨_, _, _, rfl⟩) h8, iff_of_false nofun (by omega), iff_of_false nofun (by omega),
        iff_of_false nofun fun h => h.1 h8⟩
  rw [selectWire_frame h8]
  rcases wireFrame_shape bytes with ⟨rsvd, flag, cmd, payload, hp, rfl, he⟩ | ⟨rsvd, flag, cmd, payload, hp, rfl, he⟩ |
    ⟨hn, he⟩ <;> rw [he, Option.getD]
  · obtain ⟨h10, hmax, hl⟩ := frameBytes_lengths rsvd flag 0 cmd hp
    rw [frameBytes_getD_ptype]
    exact ⟨fun _ => rfl, iff_of_false nofun h8, iff_of_true ⟨_, _, _, _, rfl⟩ ⟨h10, hmax, hl, rfl⟩,
      iff_of_false nofun fun h => absurd h.2.2.2 (by decide), iff_of_false nofun fun h => h.2 ⟨h10, hmax, hl, by decide⟩⟩
  · obtain ⟨h10, hmax, hl⟩ := frameBytes_lengths rsvd flag 1 cmd hp
    rw [frameBytes_getD_ptype]
    exact ⟨fun _ => rfl, iff_of_false nofun h8, iff_of_false nofun fun h => absurd h.2.2.2 (by decide),
      iff_of_true ⟨_, _, _, _, rfl⟩ ⟨h10, hmax, hl, rfl⟩, iff_of_false nofun fun h => h.2 ⟨h10, hmax, hl, by decide⟩⟩
  · exact ⟨fun _ => rfl, iff_of_false nofun h8,
      iff_of_false nofun fun ⟨h10, hmax, hl, ht⟩ => hn ⟨h10, hmax, hl, by rw [ht]; decide⟩,
      iff_of_false nofun fun ⟨h10, hmax, hl, ht⟩ => hn ⟨h10, hmax, hl, by rw [ht]; decide⟩, iff_of_true rfl ⟨h8, hn⟩⟩

/-- Settles O35: feeding a chunk in two pieces is feeding the pieces in order, by induction over the chunks. -/
theorem feedIgnoresChunkBoundaries : Obligations.FeedIgnoresChunkBoundaries := by
  intro chunks s
  obtain ⟨t, hrun, ht⟩ := runOps_rsFeed chunks s
  exact ⟨t, _, _, hrun, exec_rsFeed _ s, rfl, ht⟩

/-- Settles O36: by induction over the steps the machine has fed the bytes brought so far, however they were cut, and feeding
keeps R24. -/
theorem infiniteStreamsAreConsumed : Obligations.InfiniteStreamsAreConsumed := by
  refine ⟨fun chunks n s hinv hs => ?_, fun bytes chunks n m s hs hsame => ?_⟩
  · obtain ⟨t, hrun, hin, ht⟩ := runEnv_ofReads chunks n hs
    have hrsm : t.rsm = (feedBytes (readBytes chunks n) s.rsm).1 := congrArg State.rsm ht
    have htinv : t.rsm.Inv := hrsm ▸ feedBytes_inv hinv _
    exact ⟨t, hrun, htinv, htinv.acc_length_le, hin⟩
  · obtain ⟨t, hrun, -, ht⟩ := runEnv_ofReads chunks n hs
    obtain ⟨u, hrun', -, hu⟩ := runEnv_ofBytes bytes m hs
    rw [hsame, ← hu] at ht
    obtain ⟨hrsm, -, -, houtbound, hdelivered⟩ := State.mk.inj ht
    exact ⟨t, u, hrun, hrun', hrsm, hdelivered, houtbound⟩

/-- Settles O41, by induction over the frames: each leaves the reassembler initial for the next. -/
theorem backToBackFramesInOrder : Obligations.BackToBackFramesInOrder := by
  intro fs s hfs hs
  obtain ⟨hreset, hpackets⟩ := feedBytes_valid_frames hfs
  rw [← hs] at hreset hpackets
  exact ⟨_, exec_rsFeed _ s, hreset.trans hs, hpackets, congrArg (s.delivered ++ ·) hpackets⟩

end Sys2Proof.Machine

/-! PROOFS. The statements about the encoding: header words, frame classes and wire patterns (30_encoding.md). -/

namespace Sys2Proof

/-! ## The header word byte by byte (30_encoding.md R82) -/

theorem toNat_append_eq_add {m n : Nat} (x : BitVec m) (y : BitVec n) : (x ++ y).toNat = x.toNat * 2 ^ n + y.toNat := by
  rw [BitVec.toNat_append, ← Nat.shiftLeft_add_eq_or_of_lt y.isLt, Nat.shiftLeft_eq]

theorem toNat_extractLsb'_eq_div {n : Nat} (lo width : Nat) (x : BitVec n) :
    (x.extractLsb' lo width).toNat = x.toNat / 2 ^ lo % 2 ^ width := by
  rw [BitVec.extractLsb'_toNat, Nat.shiftRight_eq_div_pow]

theorem bytesLe64_injective {v w : HeaderWord} (h : bytesLe64 v = bytesLe64 w) : v = w := by
  rw [← le64_bytesLe64 v, h, le64_bytesLe64]

theorem leNat_bytesLe64 (w : HeaderWord) : leNat (bytesLe64 w) = w.toNat := by
  rw [bytesLe64_eq, leNat_bytesLE]
  exact Nat.mod_eq_of_lt (headerWord_lt w)

/-- The byte table of 30_encoding.md R82. -/
theorem bytesLe64_hdrWord (rsvd : BitVec 15) (len : BitVec 45) (flag : BitVec 4) :
    bytesLe64 (hdrWord rsvd len flag) =
      [(len.extractLsb' 0 4 ++ flag : BitVec (4 + 4)), len.extractLsb' 4 8, len.extractLsb' 12 8, len.extractLsb' 20 8,
        len.extractLsb' 28 8, len.extractLsb' 36 8, (rsvd.extractLsb' 0 7 ++ len.extractLsb' 44 1 : BitVec (7 + 1)),
        rsvd.extractLsb' 7 8] := by
  have hr := rsvd.isLt
  have hl := len.isLt
  have hf := flag.isLt
  rw [bytesLe64_eq, hdrWord_toNat]
  simp only [bytesLE, List.cons.injEq, and_true]
  refine ⟨?_, ?_, ?_, ?_, ?_, ?_, ?_, ?_⟩ <;> apply BitVec.eq_of_toNat_eq <;>
    simp only [BitVec.toNat_ofNat, toNat_append_eq_add, toNat_extractLsb'_eq_div] <;> omega

/-- total_length as the sum over its bytes: byte 7 and bits 7:1 of byte 6 play no part. -/
theorem frameLen_cons (b0 b1 b2 b3 b4 b5 b6 b7 : Byte) (rest : List Byte) :
    frameLen (b0 :: b1 :: b2 :: b3 :: b4 :: b5 :: b6 :: b7 :: rest) = Machine.byteLen b0 b1 b2 b3 b4 b5 b6 := by
  have h0 := b0.isLt
  have h1 := b1.isLt
  have h2 := b2.isLt
  have h3 := b3.isLt
  have h4 := b4.isLt
  have h5 := b5.isLt
  have h6 := b6.isLt
  have h7 := b7.isLt
  rw [frameLen_eq, hdrLen_toNat, le64_toNat]
  simp only [List.take_succ_cons, List.take_zero, leNat_cons, leNat_nil, Machine.byteLen]
  omega

/-! ## The header helpers (30_encoding.md R90 to R94) -/

/-- Packing the length and the flag of a word gives the word with its reserved bits cleared. -/
theorem hdrPack_fields (w : HeaderWord) :
    hdrPack (hdrLen w).toNat ((hdrFlag w).setWidth 8) = bytesLe64 (hdrWord 0 (hdrLen w) (hdrFlag w)) := by
  rw [hdrPack_eq _ _ (hdrLen w).isLt, BitVec.ofNat_toNat, BitVec.setWidth_eq,
    BitVec.setWidth_setWidth_of_le _ (by decide), BitVec.setWidth_eq]

theorem hdrWord_zero_fields_iff (w : HeaderWord) : hdrWord 0 (hdrLen w) (hdrFlag w) = w ↔ hdrRsvd w = 0 := by
  constructor
  · intro h
    rw [← h, hdrRsvd_hdrWord]
  · intro h
    rw [← h, hdrWord_fields]

/-- A total_length in the accepted range has its bits 44:11 zero, and the other eleven decide. -/
theorem lenValid_hdrLen_iff (w : HeaderWord) : lenValid (hdrLen w).toNat = true ↔
    w.extractLsb' 15 34 = 0 ∧ 8 ≤ (w.extractLsb' 4 11).toNat ∧ (w.extractLsb' 4 11).toNat ≤ 1024 := by
  have hw := headerWord_lt w
  have h0 : w.extractLsb' 15 34 = 0 ↔ w.toNat / 2 ^ 15 % 2 ^ 34 = 0 := by
    rw [← BitVec.toNat_inj, toNat_extractLsb'_eq_div]
    rfl
  rw [Machine.lenValid_iff, hdrLen_toNat, h0, toNat_extractLsb'_eq_div]
  omega

/-- The same check on the bytes that hold total_length. -/
theorem lenValid_byteLen_iff (b0 b1 b2 b3 b4 b5 b6 : Byte) : lenValid (Machine.byteLen b0 b1 b2 b3 b4 b5 b6) = true ↔
    b2 = 0 ∧ b3 = 0 ∧ b4 = 0 ∧ b5 = 0 ∧ b6.toNat % 2 = 0 ∧ b1.toNat < 128 ∧
    8 ≤ b1.toNat % 128 * 16 + b0.toNat / 16 ∧ b1.toNat % 128 * 16 + b0.toNat / 16 ≤ 1024 := by
  have hzero (b : Byte) : b = 0 ↔ b.toNat = 0 := BitVec.toNat_inj.symm
  rw [Machine.lenValid_iff, Machine.byteLen, hzero, hzero, hzero, hzero]
  omega

/-! ## The frame classes (30_encoding.md R101) -/

/-- A mask over the bits from `k` up sees only those bits. -/
theorem and_shiftLeft_eq (n m k : Nat) : n &&& (m <<< k) = (n >>> k &&& m) <<< k := by
  apply Nat.eq_of_testBit_eq
  intro i
  by_cases h : k ≤ i <;> simp [Nat.testBit_shiftLeft, h]

/-- The class mask over the first ten bytes reads byte 8. -/
theorem classMask_eq {frame : List Byte} (h : 10 ≤ frame.length) :
    leNat (frame.take 10) &&& (0xFF <<< 64) = (frame.getD 8 0).toNat * 2 ^ 64 := by
  have h8 : (frame.take 8).length = 8 := by
    rw [List.length_take]
    omega
  have htake : frame.take 10 = frame.take 8 ++ [frame.getD 8 0, frame.getD 9 0] := by
    rw [List.take_succ_eq_append_getElem (by omega), List.take_succ_eq_append_getElem (by omega), List.append_assoc,
      List.getD_eq_getElem _ _ (by omega), List.getD_eq_getElem _ _ (by omega)]
    rfl
  have hlow := leNat_lt (frame.take 8)
  have hbyte := (frame.getD 8 0).isLt
  rw [h8] at hlow
  rw [and_shiftLeft_eq, Nat.and_two_pow_sub_one_eq_mod _ 8, Nat.shiftRight_eq_div_pow, Nat.shiftLeft_eq, htake,
    leNat_append, h8, leNat_cons]
  omega

/-- ENCODE's length and flag stay below bit 15 of the 80-bit number (30_encoding.md R87). -/
theorem leNat_take_frameBytes_high_zero (flag : BitVec 4) (ptype cmd : Byte) {payload : List Byte}
    (h : payload.length ≤ 1014) :
    leNat ((frameBytes 0 flag ptype cmd payload).take 10) / 2 ^ 15 % 2 ^ 49 = 0 := by
  have hf := flag.isLt
  have htake : (frameBytes 0 flag ptype cmd payload).take 10 =
      bytesLe64 (hdrWord 0 (BitVec.ofNat 45 (10 + payload.length)) flag) ++ [ptype, cmd] := by
    simp [frameBytes, List.take_append]
  have hword : leNat (bytesLe64 (hdrWord 0 (BitVec.ofNat 45 (10 + payload.length)) flag)) =
      (10 + payload.length) * 16 + flag.toNat := by
    rw [leNat_bytesLe64, hdrWord_toNat, BitVec.toNat_ofNat, Nat.mod_eq_of_lt (by omega)]
    exact congrArg (· + flag.toNat) (Nat.zero_add _)
  rw [htake, leNat_append, hword, bytesLe64_length]
  omega

/-! ## The wire patterns' bytes (30_encoding.md R80, R87) -/

/-- A frame's header by the byte table, its length given on the 45 bits of the field. -/
theorem frameBytes_eq_append {len : BitVec 45} {payload : List Byte} (h : len.toNat = 10 + payload.length)
    (rsvd : BitVec 15) (flag : BitVec 4) (ptype cmd : Byte) :
    frameBytes rsvd flag ptype cmd payload = bytesLe64 (hdrWord rsvd len flag) ++ ptype :: cmd :: payload := by
  have hlen : BitVec.ofNat 45 (10 + payload.length) = len := by rw [← h, BitVec.ofNat_toNat, BitVec.setWidth_eq]
  rw [← hlen]
  rfl

/-- The bytes of HDR.TX: length and flag in bytes 0 and 1, the others zero. -/
theorem bytesLe64_hdrTx (len : BitVec 11) (flag : BitVec 4) :
    bytesLe64 (hdrWord 0 (len.setWidth 45) flag) =
      [BitVec.ofNat 8 (len.toNat % 16 * 16 + flag.toNat), BitVec.ofNat 8 (len.toNat / 16), 0, 0, 0, 0, 0, 0] := by
  have hl := len.isLt
  have hf := flag.isLt
  rw [bytesLe64_eq, hdrWord_toNat, setWidth_lenW_toNat]
  simp only [bytesLE, List.cons.injEq, and_true]
  refine ⟨?_, ?_, ?_, ?_, ?_, ?_, ?_, ?_⟩ <;> apply BitVec.eq_of_toNat_eq <;> simp <;> omega

/-- The same two bytes as slices of the length. -/
theorem hdrTx_bytes_eq_slices (len : BitVec 11) (flag : BitVec 4) :
    BitVec.ofNat 8 (len.toNat % 16 * 16 + flag.toNat) = (len.extractLsb' 0 4 ++ flag : BitVec (4 + 4)) ∧
    BitVec.ofNat 8 (len.toNat / 16) = (len.extractLsb' 4 7).setWidth 8 := by
  have hl := len.isLt
  have hf := flag.isLt
  constructor <;> apply BitVec.eq_of_toNat_eq <;>
    simp only [BitVec.toNat_ofNat, BitVec.toNat_setWidth, toNat_append_eq_add, toNat_extractLsb'_eq_div] <;> omega

end Sys2Proof

namespace Sys2Proof.Machine

/-! ## What DECODE answers on a frame of given fields (41_decoder.md R146, R147) -/

theorem packetOfFrame_frameBytes (rsvd : BitVec 15) (flag : BitVec 4) (ptype cmd : Byte) (payload : List Byte) :
    packetOfFrame (frameBytes rsvd flag ptype cmd payload) =
      { packet := { userField := cmd, payload := payload, payloadType := if ptype = 0 then .none else .string }
        flag := flag } := by
  have hflag : frameFlag (frameBytes rsvd flag ptype cmd payload) = flag := by
    rw [frameFlag, frameWord, frameBytes_take, le64_bytesLe64, hdrFlag_hdrWord]
  rw [packetOfFrame, hflag]
  simp [framePtypeByte, frameUserField, framePayload, payloadTypeOf, frameBytes, List.getElem?_append, List.drop_append]

/-- Any reserved bits, any flag, any length the field holds. -/
theorem decodeFrame_frameBytes {ptype : Byte} {payload : List Byte} (h : 10 + payload.length < 2 ^ 45)
    (ht : ptype.toNat ≤ 1) (rsvd : BitVec 15) (flag : BitVec 4) (cmd : Byte) :
    decodeFrame (frameBytes rsvd flag ptype cmd payload) = .packet
      { packet := { userField := cmd, payload := payload, payloadType := if ptype = 0 then .none else .string }
        flag := flag } := by
  have hlen := frameBytes_length rsvd flag ptype cmd payload
  have hl := frameLen_frameBytes rsvd flag ptype cmd payload h
  have hp : framePtypeByte (frameBytes rsvd flag ptype cmd payload) = ptype := frameBytes_getD_ptype _ _ _ _ _
  rcases decodeFrame_cases (frameBytes rsvd flag ptype cmd payload) with ⟨h8, -⟩ | ⟨-, hne, -⟩ | ⟨-, -, hc, -⟩ |
    ⟨-, -, -, he⟩
  · omega
  · omega
  · rw [hp] at hc
    omega
  · rw [he, packetOfFrame_frameBytes]

/-- A frame that announces its own length is decoded by its byte 8 alone. -/
theorem decodeFrame_by_ptype {frame : List Byte} (h10 : 10 ≤ frame.length) (hl : frameLen frame = frame.length) :
    ((frame.getD 8 0).toNat = 0 ∧ ∃ d, decodeFrame frame = .packet d ∧ d.packet.payloadType = .none) ∨
    ((frame.getD 8 0).toNat = 1 ∧ ∃ d, decodeFrame frame = .packet d ∧ d.packet.payloadType = .string) ∨
    (1 < (frame.getD 8 0).toNat ∧ decodeFrame frame = .error .malformedFrame) := by
  rcases decodeFrame_cases frame with ⟨h8, -⟩ | ⟨-, hne, -⟩ | ⟨-, -, hc, he⟩ |
    ⟨-, -, (ht : (frame.getD 8 0).toNat ≤ 1), he⟩
  · omega
  · exact absurd hl.symm hne
  · exact Or.inr (Or.inr ⟨hc.resolve_left (by omega), he⟩)
  · by_cases h0 : frame.getD 8 0 = 0
    · exact Or.inl ⟨by rw [h0]; rfl, _, he, if_pos h0⟩
    · have h1 : (frame.getD 8 0).toNat ≠ 0 := fun h => h0 (BitVec.eq_of_toNat_eq h)
      exact Or.inr (Or.inl ⟨by omega, _, he, if_neg h0⟩)

/-! ## What arrives at the reassembler (42_reassembler.md R163 to R166) -/

theorem exec_hdr (rsvd : BitVec 15) (len : BitVec 45) (flag : BitVec 4) (s : State) :
    exec (.hdr rsvd len flag) s = .next (giveChunk (bytesLe64 (hdrWord rsvd len flag)) s) := rfl

theorem exec_hdrTx (len : BitVec 11) (flag : BitVec 4) (s : State) :
    exec (.hdrTx len flag) s = .next (giveChunk (bytesLe64 (hdrWord 0 (len.setWidth 45) flag)) s) := rfl

theorem exec_frameNone (rsvd : BitVec 15) (flag : BitVec 4) (cmd : Byte) (payload : List Byte) (s : State) :
    exec (.frameNone rsvd flag cmd payload) s = .next (giveChunk (frameBytes rsvd flag 0 cmd payload) s) := rfl

theorem exec_frameString (rsvd : BitVec 15) (flag : BitVec 4) (cmd : Byte) (payload : List Byte) (s : State) :
    exec (.frameString rsvd flag cmd payload) s = .next (giveChunk (frameBytes rsvd flag 1 cmd payload) s) := rfl

@[simp] theorem frameLen_bytesLe64 (w : HeaderWord) : frameLen (bytesLe64 w) = (hdrLen w).toNat := by
  rw [frameLen_eq, List.take_of_length_le (bytesLe64_length w).le, le64_bytesLe64]

/-- Eight bytes into the initial reassembler: the first seven are only stored, the eighth is checked with them. -/
theorem feedBytes_eight_cases {h : List Byte} (h8 : h.length = 8) :
    ((frameLen h < 8 ∨ 1024 < frameLen h) ∧ feedBytes h Rsm.reset =
      ({ rsState := .seekingHeader, rsExpected := 0, acc := h.drop 1 },
        List.replicate 7 RsOut.idle ++ [{ ev := .resync, err := none, pkt := none }])) ∨
    (frameLen h = 8 ∧ feedBytes h Rsm.reset =
      (Rsm.reset, List.replicate 7 RsOut.idle ++ [{ ev := .drop, err := some .malformedFrame, pkt := none }])) ∨
    (9 ≤ frameLen h ∧ frameLen h ≤ 1024 ∧ feedBytes h Rsm.reset =
      ({ rsState := .readingBody, rsExpected := BitVec.ofNat 11 (frameLen h), acc := h },
        List.replicate 7 RsOut.idle ++ [{ ev := .header, err := none, pkt := none }])) := by
  obtain ⟨xs, b, rfl⟩ : ∃ xs b, h = xs ++ [b] := by
    simpa [List.concat_eq_append] using (List.eq_nil_or_concat h).resolve_left (by rintro rfl; cases h8)
  have hx : xs.length = 7 := by simpa using h8
  have hfill : feedBytes xs Rsm.reset =
      ({ rsState := .seekingHeader, rsExpected := 0, acc := xs }, List.replicate 7 RsOut.idle) := by
    rw [← hx]
    exact feedBytes_fill xs [] (by simp [hx])
  rw [feedBytes_append, hfill, feedBytes_cons, feedBytes_nil]
  rcases pushByte_cases (Rsm.inv_seeking xs hx.le) b (held := xs ++ [b]) rfl with ⟨-, hlt, -⟩ | ⟨-, -, hl, he⟩ |
    ⟨-, -, hl, he⟩ | ⟨-, -, h9, hmax, he⟩ | ⟨hs, -⟩ | ⟨hs, -⟩
  · omega
  · exact Or.inl ⟨hl, by rw [he]; rfl⟩
  · exact Or.inr (Or.inl ⟨hl, by rw [he]; rfl⟩)
  · exact Or.inr (Or.inr ⟨h9, hmax, by rw [he]; rfl⟩)
  · cases hs
  · cases hs

theorem giveRsm_of_no_packets {outs : List RsOut} (h : packetsOf outs = []) (r : Rsm) (s : State) :
    giveRsm r outs s = { s with rsm := r, out := { enc := none, dec := none, rs := outs } } := by
  rw [giveRsm, h, List.append_nil]
  rfl

/-- Bytes into the initial reassembler whose outputs are seven idle ones and one without a packet. -/
theorem giveChunk_of_seven_idle {h : List Byte} {s : State} {r : Rsm} {o : RsOut} (hs : s.rsm = Rsm.reset)
    (hp : o.pkt = none) (hf : feedBytes h Rsm.reset = (r, List.replicate 7 RsOut.idle ++ [o])) :
    giveChunk h s =
      { s with rsm := r, out := { enc := none, dec := none, rs := List.replicate 7 RsOut.idle ++ [o] } } := by
  have hnone : packetsOf (List.replicate 7 RsOut.idle ++ [o]) = [] := by
    rw [packetsOf_append, packetsOf_replicate_idle]
    simp [packetsOf, hp]
  rw [giveChunk_eq_giveRsm, hs, hf, giveRsm_of_no_packets hnone]

/-- A frame of either class into the initial reassembler: the header with the eighth byte, the packet with the last. -/
theorem giveChunk_frameBytes {rsvd : BitVec 15} {flag : BitVec 4} {ptype cmd : Byte} {payload : List Byte} {s : State}
    {d : Delivery} (hp : payload.length ≤ 1014) (hs : s.rsm = Rsm.reset)
    (hd : decodeFrame (frameBytes rsvd flag ptype cmd payload) = .packet d) :
    giveChunk (frameBytes rsvd flag ptype cmd payload) s = { s with
      out :=
        { enc := none, dec := none
          rs := List.replicate 7 RsOut.idle ++ [{ ev := .header, err := none, pkt := none }] ++
            List.replicate (payload.length + 1) RsOut.idle ++ [{ ev := .packet, err := none, pkt := some d }] }
      delivered := s.delivered ++ [d] } := by
  obtain ⟨h10, hmax, hl⟩ := frameBytes_lengths rsvd flag ptype cmd hp
  have hbody : (frameBytes rsvd flag ptype cmd payload).length - 9 = payload.length + 1 := by
    rw [frameBytes_length]
    omega
  have hfeed := feedBytes_frame (by omega) hmax hl
  rw [hbody, reportFrame, hd] at hfeed
  rw [giveChunk_eq_giveRsm, hs, hfeed, giveRsm, ← hs]
  simp only [packetsOf_append, packetsOf_replicate_idle]
  rfl

/-! ## The statements -/

/-- Settles O4: packing and the fields of a word are inverse, and the reserved bits are all that packing drops. -/
theorem headerHelperLaws : Obligations.HeaderHelperLaws := by
  refine ⟨fun tl f h => ?_, fun w => ?_⟩
  · rw [hdrPack_eq tl f h, le64_bytesLe64, hdrLen_hdrWord, hdrFlag_hdrWord, hdrRsvd_hdrWord]
    refine ⟨?_, ?_, rfl⟩
    · rw [BitVec.toNat_ofNat, Nat.mod_eq_of_lt h]
    · rw [BitVec.toNat_setWidth]
      exact (Nat.and_two_pow_sub_one_eq_mod f.toNat 4).symm
  · rw [hdrPack_fields]
    exact ⟨fun h => (hdrWord_zero_fields_iff w).1 (bytesLe64_injective h),
      fun h => congrArg bytesLe64 ((hdrWord_zero_fields_iff w).2 h)⟩

/-- Settles O5: the word is the sum of its shifted fields, and its bytes are that sum's digits. -/
theorem headerByteLayout : Obligations.HeaderByteLayout := bytesLe64_hdrWord

/-- Settles O6, by the bits of total_length, and by its sum over the bytes. -/
theorem headerCheckInBits : Obligations.HeaderCheckInBits := by
  refine ⟨lenValid_hdrLen_iff, fun b0 b1 b2 b3 b4 b5 b6 b7 => ?_⟩
  rw [frameLen_cons]
  exact lenValid_byteLen_iff b0 b1 b2 b3 b4 b5 b6

/-- Settles O7: the mask reads byte 8, and with the length condition byte 8 alone decides what DECODE answers. -/
theorem frameClassesByMask : Obligations.FrameClassesByMask := by
  refine ⟨fun frame h10 hl => ?_, fun payload frame flag ptype cmd he => ?_⟩
  · have hcases := decodeFrame_by_ptype h10 hl
    rw [classMask_eq h10]
    generalize (frame.getD 8 0).toNat = n at hcases ⊢
    rcases hcases with ⟨rfl, d, he, ht⟩ | ⟨rfl, d, he, ht⟩ | ⟨hn, he⟩
    · simp [he, ht]
    · simp [he, ht]
    · have hno (d : Delivery) : decodeFrame frame ≠ .packet d := by simp [he]
      exact ⟨iff_of_false (by omega) fun ⟨d, hd, _⟩ => hno d hd, iff_of_false (by omega) fun ⟨d, hd, _⟩ => hno d hd,
        iff_of_true ⟨by omega, by omega⟩ he⟩
  · rcases encodeFrame_cases payload flag ptype cmd with ⟨hp, hf⟩ | ⟨-, hf⟩ <;> rw [hf] at he <;> cases he
    exact leNat_take_frameBytes_high_zero _ ptype cmd hp

/-- Settles O28: the length check passes for every length the field holds, and no check reads flag or reserved bits. -/
theorem decodeIgnoresReservedBitsAndFlag : Obligations.DecodeIgnoresReservedBitsAndFlag := by
  intro rsvd flag ptype cmd payload s h ht
  rw [exec_decode, decodeFrame_frameBytes h ht]

/-- Settles O50: each pattern feeds its bytes, which the byte table writes out. -/
theorem wirePatternsAreTheirBytes : Obligations.WirePatternsAreTheirBytes := by
  intro rsvd flag s
  refine ⟨fun len => ?_, fun l => ?_, fun len cmd payload header hlen hh => ?_, fun cmd payload hp => ?_⟩
  · rw [exec_hdr, bytesLe64_hdrWord, exec_rsFeed]
  · obtain ⟨h0, h1⟩ := hdrTx_bytes_eq_slices l flag
    rw [exec_hdrTx, bytesLe64_hdrTx, h0, h1, exec_rsFeed]
  · rw [← bytesLe64_hdrWord] at hh
    rw [exec_frameNone, exec_frameString, frameBytes_eq_append hlen, frameBytes_eq_append hlen, ← hh]
    exact ⟨rfl, rfl⟩
  · have hflag : (flag.setWidth 8).setWidth 4 = flag := by
      rw [BitVec.setWidth_setWidth_of_le _ (by decide), BitVec.setWidth_eq]
    rw [exec_frameNone, exec_frameString, ← frameBytes_eq_plainFrame _ _ _ _ hp, ← frameBytes_eq_plainFrame _ _ _ _ hp,
      hflag]
    exact ⟨rfl, rfl⟩

/-- Settles O51, by the ranges of total_length that the header check tells apart. -/
theorem headerWordArrives : Obligations.HeaderWordArrives := by
  intro rsvd len flag s hs
  have hlen : frameLen (bytesLe64 (hdrWord rsvd len flag)) = len.toNat := by rw [frameLen_bytesLe64, hdrLen_hdrWord]
  rw [exec_hdr]
  rcases feedBytes_eight_cases (bytesLe64_length (hdrWord rsvd len flag)) with ⟨hl, hf⟩ | ⟨hl, hf⟩ | ⟨h9, hmax, hf⟩ <;>
    rw [giveChunk_of_seven_idle hs rfl hf]
  · exact ⟨fun _ => rfl, by omega, by omega⟩
  · exact ⟨by omega, fun _ => by rw [← hs], by omega⟩
  · refine ⟨by omega, by omega, fun _ _ => ?_⟩
    rw [hlen, BitVec.ofNat_toNat]

/-- Settles O53: a length that ENCODE writes is in the range of the header check. -/
theorem transmittedHeaderIsAccepted : Obligations.TransmittedHeaderIsAccepted := by
  intro len flag s hs h10 hmax
  have hlen : frameLen (bytesLe64 (hdrWord 0 (len.setWidth 45) flag)) = len.toNat := by
    rw [frameLen_bytesLe64, hdrLen_hdrWord, setWidth_lenW_toNat]
  rcases feedBytes_eight_cases (bytesLe64_length (hdrWord 0 (len.setWidth 45) flag)) with ⟨hl, -⟩ | ⟨hl, -⟩ | ⟨-, -, hf⟩
  · omega
  · omega
  · rw [exec_hdrTx, giveChunk_of_seven_idle hs rfl hf, hlen, BitVec.ofNat_toNat, BitVec.setWidth_eq, bytesLe64_hdrTx]

/-- Settles O54: a frame of either class announces its own length, and DECODE gives its fields. -/
theorem frameClassesAreDelivered : Obligations.FrameClassesAreDelivered := by
  intro rsvd flag cmd payload s hp hs
  refine ⟨fun d hd => ?_, fun d hd => ?_⟩ <;> subst hd
  · rw [exec_frameNone, giveChunk_frameBytes hp hs (decodeFrame_frameBytes (by omega) (by decide) rsvd flag cmd)]
    rfl
  · rw [exec_frameString, giveChunk_frameBytes hp hs (decodeFrame_frameBytes (by omega) (by decide) rsvd flag cmd)]
    rfl

/-- Settles O8: the step takes the oldest transaction and runs its selection. -/
theorem stepRunsSelectedOperation : Obligations.StepRunsSelectedOperation := by
  intro s t rest i hi hx
  rw [step_cons hi, hx]
  rfl

end Sys2Proof.Machine

/-! PROOFS. The statements about the encoder (40_encoder.md). -/

namespace Sys2Proof.Machine

/-! ## What ENCODE answers on either side of the limit (40_encoder.md R121, R123) -/

theorem exec_encode_of_le {payload : List Byte} (h : payload.length ≤ 1014) (flag ptype cmd : Byte) (s : State) :
    exec (.encode payload flag ptype cmd) s = .next (giveFrame (plainFrame payload flag ptype cmd) s) := by
  rcases encodeFrame_cases payload flag ptype cmd with ⟨-, he⟩ | ⟨hlt, -⟩
  · rw [exec, execEncode, he, frameBytes_eq_plainFrame payload flag ptype cmd h]
  · omega

theorem exec_encode_of_lt {payload : List Byte} (h : 1014 < payload.length) (flag ptype cmd : Byte) (s : State) :
    exec (.encode payload flag ptype cmd) s = .next (raiseError .encode .payloadTooLarge s) := by
  rcases encodeFrame_cases payload flag ptype cmd with ⟨hle, -⟩ | ⟨-, he⟩
  · omega
  · rw [exec, execEncode, he]

/-! ## What the ENC port shows (10_state.md R33) -/

@[simp] theorem giveFrame_encErr (bytes : List Byte) (s : State) : (giveFrame bytes s).encErr = some 0 := rfl
@[simp] theorem giveFrame_encFrame (bytes : List Byte) (s : State) : (giveFrame bytes s).encFrame = some bytes := rfl
@[simp] theorem giveFrame_encFrameLen (bytes : List Byte) (s : State) :
    (giveFrame bytes s).encFrameLen = some (BitVec.ofNat 11 bytes.length) := rfl
@[simp] theorem raiseError_encode_encErr (e : ErrKind) (s : State) :
    (raiseError .encode e s).encErr = some e.code := rfl
@[simp] theorem raiseError_encode_encFrame (e : ErrKind) (s : State) :
    (raiseError .encode e s).encFrame = some [] := rfl
@[simp] theorem raiseError_encode_encFrameLen (e : ErrKind) (s : State) :
    (raiseError .encode e s).encFrameLen = some 0 := rfl

/-! ## The frame's header (40_encoder.md R127) and what DECODE answers on it (R128) -/

theorem le64_take_plainFrame {payload : List Byte} (h : payload.length ≤ 1014) (flag ptype cmd : Byte) :
    le64 ((plainFrame payload flag ptype cmd).take 8) =
      hdrWord 0 (BitVec.ofNat 45 (10 + payload.length)) (flag.setWidth 4) := by
  rw [← frameBytes_eq_plainFrame payload flag ptype cmd h, frameBytes_take, le64_bytesLe64]

/-- Byte 1 holds the length without its low digit, and 1024 / 16 = 0x40. -/
theorem plainFrame_getD_one_le {payload : List Byte} (h : payload.length ≤ 1014) (flag ptype cmd : Byte) :
    ((plainFrame payload flag ptype cmd).getD 1 0).toNat ≤ 0x40 := by
  change (BitVec.ofNat 8 ((10 + payload.length) / 16)).toNat ≤ 0x40
  rw [BitVec.toNat_ofNat]
  omega

theorem decodeFrame_plainFrame {payload : List Byte} (h : payload.length ≤ 1014) {ptype : Byte} (ht : ptype.toNat ≤ 1)
    (flag cmd : Byte) :
    decodeFrame (plainFrame payload flag ptype cmd) = .packet (plainPacket payload flag ptype cmd) := by
  have hflag : flag.setWidth 4 = BitVec.ofNat 4 (flag.toNat % 16) := by
    apply BitVec.eq_of_toNat_eq
    rw [BitVec.toNat_setWidth, BitVec.toNat_ofNat, Nat.mod_mod]
  rw [← frameBytes_eq_plainFrame payload flag ptype cmd h, decodeFrame_frameBytes (by omega) ht, hflag]
  rfl

/-- A type byte is the byte of the type it is read as, when it is one of the two (decision D3). -/
theorem byte_payloadTypeOf {ptype : Byte} (h : ptype = 0 ∨ ptype = 1) : (payloadTypeOf ptype).byte = ptype := by
  rcases h with rfl | rfl <;> rfl

/-! ## The statements -/

/-- Settles O21: the frame is R127's byte by byte, and its header is the word of its own length and flag. -/
theorem encodeProducesWholeFrame : Obligations.EncodeProducesWholeFrame := by
  intro payload flag ptype cmd s h
  have hlen := plainFrame_length payload flag ptype cmd
  have hheader := le64_take_plainFrame h flag ptype cmd
  refine ⟨_, exec_encode_of_le h flag ptype cmd s, rfl, giveFrame_encErr _ s,
    ⟨_, giveFrame_encFrameLen _ s, ?_⟩, giveFrame_encFrame _ s, rfl, rfl, rfl, rfl, rfl, hlen,
    frameLen_plainFrame h flag ptype cmd, ?_, ?_, plainFrame_getD_one_le h flag ptype cmd⟩
  · rw [ofNat_portLenW_toNat (by omega), hlen]
  · rw [hheader, hdrFlag_hdrWord, BitVec.toNat_setWidth]
    exact (Nat.and_two_pow_sub_one_eq_mod flag.toNat 4).symm
  · rw [hheader, hdrRsvd_hdrWord]

/-- Settles O22, by the two sides of the limit. -/
theorem encodeTooLargeProducesNothing : Obligations.EncodeTooLargeProducesNothing := by
  intro payload flag ptype cmd s
  refine ⟨fun h => exec_encode_of_lt h flag ptype cmd s, fun t ht => ?_⟩
  rcases Nat.lt_or_ge 1014 payload.length with h | h
  · cases (exec_encode_of_lt h flag ptype cmd s).symm.trans ht
    refine ⟨iff_of_true rfl (by omega), iff_of_false ?_ (by omega),
      fun _ => ⟨raiseError_encode_encFrame _ s, raiseError_encode_encFrameLen _ s, raiseError_outbound .encode _ s⟩⟩
    rw [raiseError_encode_encErr]
    decide
  · cases (exec_encode_of_le h flag ptype cmd s).symm.trans ht
    have hne : (giveFrame (plainFrame payload flag ptype cmd) s).encErr ≠ some 1 := by
      rw [giveFrame_encErr]
      decide
    exact ⟨iff_of_false hne (by omega), iff_of_true rfl h, fun he => absurd he hne⟩

/-- Settles O23: DECODE's packet of R127's frame has the fields that ENCODE was given. -/
theorem encodeDecodeRoundTrip : Obligations.EncodeDecodeRoundTrip := by
  intro payload flag ptype cmd s s' h htype
  have ht : ptype.toNat ≤ 1 := by rcases htype with rfl | rfl <;> decide
  refine ⟨_, _, payloadTypeOf ptype, exec_encode_of_le h flag ptype cmd s, giveFrame_encFrame _ s, ?_,
    byte_payloadTypeOf htype⟩
  rw [exec_decode, decodeFrame_plainFrame h ht]
  rfl

end Sys2Proof.Machine

/-! PROOFS. The statements about the decoder (41_decoder.md). -/

namespace Sys2Proof.Machine

/-! ## What each check of DECODE answers, in the order of R207 (41_decoder.md R141 to R147) -/

theorem decodeFrame_eq_frameTooShort_iff (frame : List Byte) :
    decodeFrame frame = .error .frameTooShort ↔ frame.length < 8 := by
  rcases decodeFrame_cases frame with ⟨h8, he⟩ | ⟨h8, -, he⟩ | ⟨h8, -, -, he⟩ | ⟨h10, -, -, he⟩ <;> rw [he]
  · exact iff_of_true rfl h8
  · exact iff_of_false (by decide) (by omega)
  · exact iff_of_false (by decide) (by omega)
  · exact iff_of_false nofun (by omega)

theorem decodeFrame_of_length_ne {frame : List Byte} (h8 : 8 ≤ frame.length) (hne : frame.length ≠ frameLen frame) :
    decodeFrame frame = .error .invalidLength := by
  rcases decodeFrame_cases frame with ⟨h, -⟩ | ⟨-, -, he⟩ | ⟨-, hl, -⟩ | ⟨-, hl, -⟩
  · omega
  · exact he
  · exact absurd hl hne
  · exact absurd hl hne

/-- A whole frame of 8 or 9 bytes lacks a metadata byte (41_decoder.md R143). -/
theorem decodeFrame_of_length_lt_ten {frame : List Byte} (h8 : 8 ≤ frame.length) (hl : frame.length = frameLen frame)
    (h10 : frame.length < 10) : decodeFrame frame = .error .malformedFrame := by
  rcases decodeFrame_cases frame with ⟨h, -⟩ | ⟨-, hne, -⟩ | ⟨-, -, -, he⟩ | ⟨h, -⟩
  · omega
  · exact absurd hl hne
  · exact he
  · omega

theorem packetOfFrame_cons (b0 b1 b2 b3 b4 b5 b6 b7 ptype cmd : Byte) (payload : List Byte) :
    packetOfFrame (b0 :: b1 :: b2 :: b3 :: b4 :: b5 :: b6 :: b7 :: ptype :: cmd :: payload) =
      { packet := { userField := cmd, payload := payload, payloadType := payloadTypeOf ptype }
        flag := BitVec.ofNat 4 (b0.toNat % 16) } := by
  rw [packetOfFrame, frameFlag_eq]
  rfl

/-- With both metadata bytes there, the payload_type byte alone decides (41_decoder.md R144 to R146). -/
theorem decodeFrame_cons {b0 b1 b2 b3 b4 b5 b6 b7 ptype cmd : Byte} {payload : List Byte}
    (hl : 10 + payload.length = byteLen b0 b1 b2 b3 b4 b5 b6) :
    decodeFrame (b0 :: b1 :: b2 :: b3 :: b4 :: b5 :: b6 :: b7 :: ptype :: cmd :: payload) =
      if 1 < ptype.toNat then .error .malformedFrame
      else .packet
        { packet := { userField := cmd, payload := payload, payloadType := payloadTypeOf ptype }
          flag := BitVec.ofNat 4 (b0.toNat % 16) } := by
  rcases decodeFrame_cases (b0 :: b1 :: b2 :: b3 :: b4 :: b5 :: b6 :: b7 :: ptype :: cmd :: payload) with
    ⟨h8, -⟩ | ⟨-, hne, -⟩ | ⟨-, -, (hc : _ ∨ 1 < ptype.toNat), he⟩ | ⟨-, -, (ht : ptype.toNat ≤ 1), he⟩
  · simp only [List.length_cons] at h8
    omega
  · rw [frameLen_cons] at hne
    simp only [List.length_cons] at hne
    omega
  · simp only [List.length_cons] at hc
    rw [he, if_pos (hc.resolve_left (by omega))]
  · rw [he, if_neg (by omega), packetOfFrame_cons]

/-! ## The statements -/

/-- Settles O24: the first check answers exactly on fewer than 8 bytes, and the output shows the answer. -/
theorem decodeTooShort : Obligations.DecodeTooShort := by
  intro frame s
  rw [exec_decode]
  refine ⟨fun h => by rw [(decodeFrame_eq_frameTooShort_iff frame).2 h], fun h8 he => ?_⟩
  have hshort : decodeFrame frame = .error .frameTooShort := by simpa using he
  exact absurd ((decodeFrame_eq_frameTooShort_iff frame).1 hshort) (by omega)

/-- Settles O25, by the checks in their order: the length field, then how many of the two metadata bytes are there. -/
theorem decodeOutcome : Obligations.DecodeOutcome := by
  intro b0 b1 b2 b3 b4 b5 b6 b7 rest s
  have hlen : (b0 :: b1 :: b2 :: b3 :: b4 :: b5 :: b6 :: b7 :: rest).length = 8 + rest.length := by
    simp only [List.length_cons]
    omega
  have hfield := frameLen_cons b0 b1 b2 b3 b4 b5 b6 b7 rest
  rw [exec_decode]
  by_cases hl : 8 + rest.length = byteLen b0 b1 b2 b3 b4 b5 b6
  · have hwhole := hlen.trans (hl.trans hfield.symm)
    rw [if_neg (not_not.2 hl)]
    match rest with
    | [] | [_] => rw [decodeFrame_of_length_lt_ten (by omega) hwhole (by simp)]
    | ptype :: cmd :: payload =>
      rw [List.length_cons, List.length_cons] at hl
      rw [decodeFrame_cons (by omega)]
      rfl
  · rw [if_pos hl, decodeFrame_of_length_ne (by omega) (by omega)]

end Sys2Proof.Machine

/-! PROOFS. The statements about the reassembler (42_reassembler.md). -/

namespace Sys2Proof.Machine

/-! ## RS.PUSH and RS.FEED as whole next states (42_reassembler.md R167, R171) -/

theorem exec_rsPush_of_no_packet {b : Byte} {s : State} {r : Rsm} {o : RsOut} (hp : pushByte b s.rsm = (r, o))
    (ho : o.pkt = none) :
    exec (.rsPush b) s = .next { s with rsm := r, out := { enc := none, dec := none, rs := [o] } } := by
  rw [exec_rsPush, hp, giveRsm_of_no_packets (by simp [packetsOf, ho])]

theorem exec_rsPush_of_packet {b : Byte} {s : State} {r : Rsm} {o : RsOut} {d : Delivery}
    (hp : pushByte b s.rsm = (r, o)) (ho : o.pkt = some d) :
    exec (.rsPush b) s = .next { s with
      rsm := r
      out := { enc := none, dec := none, rs := [o] }
      delivered := s.delivered ++ [d] } := by
  have hd : packetsOf [o] = [d] := by simp [packetsOf, ho]
  rw [exec_rsPush, hp, giveRsm, hd]
  rfl

theorem reportFrame_packet {frame : List Byte} {d : Delivery} (h : decodeFrame frame = .packet d) (o : RsOut) :
    reportFrame frame o = { ev := .packet, err := none, pkt := some d } := by
  rw [reportFrame, h]

theorem reportFrame_error {frame : List Byte} {e : ErrKind} (h : decodeFrame frame = .error e) (o : RsOut) :
    reportFrame frame o = { o with ev := .drop, err := some e } := by
  rw [reportFrame, h]
  rfl

theorem exec_rsPush_eq_rsFeed (b : Byte) (s : State) : exec (.rsPush b) s = exec (.rsFeed [b]) s := rfl

/-- Pushes in order are one-byte chunks in order. -/
theorem runOps_rsPush_eq_rsFeed (chunk : List Byte) (s : State) :
    runOps (chunk.map Instr.rsPush) s = runOps ((chunk.map fun b => [b]).map Instr.rsFeed) s := by
  induction chunk generalizing s with
  | nil => rfl
  | cons b bs ih => simp only [List.map_cons, runOps, exec_rsPush_eq_rsFeed, exec_rsFeed, ih]

theorem runOps_rsPush (chunk : List Byte) (s : State) :
    ∃ t, runOps (chunk.map Instr.rsPush) s = .next (t, (feedBytes chunk s.rsm).2) ∧
      { t with out := Outputs.idle } = { giveChunk chunk s with out := Outputs.idle } := by
  have h := runOps_rsFeed (chunk.map fun b => [b]) s
  rwa [← runOps_rsPush_eq_rsFeed, ← List.flatMap_def, List.flatMap_singleton'] at h

/-! ## The loop from any state (42_reassembler.md R165) -/

/-- A bound on the actions left in a state: two for each byte held, one for the check of the candidate header, and one for the
extraction of no bytes that only an unreachable state (`rs_expected` 0 in ReadingBody) takes. -/
def actionsLeft (r : Rsm) : Nat :=
  match r.rsState with
  | .seekingHeader => 2 * r.acc.length + 1
  | .readingBody => if r.rsExpected.toNat = 0 then 2 * r.acc.length + 2 else 2 * r.acc.length

theorem actionsLeft_seeking {r : Rsm} (h : r.rsState = .seekingHeader) : actionsLeft r = 2 * r.acc.length + 1 := by
  rw [actionsLeft, h]

theorem actionsLeft_reading {r : Rsm} (h : r.rsState = .readingBody) :
    actionsLeft r = if r.rsExpected.toNat = 0 then 2 * r.acc.length + 2 else 2 * r.acc.length := by
  rw [actionsLeft, h]

theorem actionsLeft_le_enoughRounds (r : Rsm) : actionsLeft r ≤ enoughRounds r := by
  unfold enoughRounds
  cases hs : r.rsState with
  | seekingHeader =>
    rw [actionsLeft_seeking hs]
    omega
  | readingBody =>
    rw [actionsLeft_reading hs]
    split <;> omega

theorem lenValid_eq_false {n : Nat} (h : n < 8 ∨ 1024 < n) : lenValid n = false := by
  rw [← Bool.not_eq_true, lenValid_iff]
  omega

theorem rsmAction_discard {r : Rsm} (o : RsOut) (hs : r.rsState = .seekingHeader) (hl : 8 ≤ r.acc.length)
    (hv : lenValid (frameLen r.acc) = false) : rsmAction r o = some (accDrop 1 r, { o with ev := .resync }) := by
  rw [rsmAction_seeking o hs hl, checkHeader_invalid o hv]

theorem rsmAction_header {r : Rsm} (o : RsOut) (hs : r.rsState = .seekingHeader) (hl : 8 ≤ r.acc.length)
    (hv : lenValid (frameLen r.acc) = true) :
    rsmAction r o = some
      ({ r with rsExpected := BitVec.ofNat 11 (frameLen r.acc), rsState := .readingBody }, { o with ev := .header }) := by
  rw [rsmAction_seeking o hs hl, checkHeader_valid o hv]

theorem rsmAction_extract {r : Rsm} (o : RsOut) (hs : r.rsState = .readingBody)
    (hl : r.rsExpected.toNat ≤ r.acc.length) :
    rsmAction r o = some
      ({ rsState := .seekingHeader, rsExpected := 0, acc := r.acc.drop r.rsExpected.toNat },
        reportFrame (r.acc.take r.rsExpected.toNat) o) := rsmAction_reading o hs hl

/-- Where the body's bytes are all that is held, its extraction leaves the initial registers. -/
theorem rsmAction_whole {r : Rsm} (o : RsOut) (hs : r.rsState = .readingBody)
    (hl : r.acc.length = r.rsExpected.toNat) : rsmAction r o = some (Rsm.reset, reportFrame r.acc o) := by
  rw [rsmAction_extract o hs hl.ge, ← hl, List.take_length, List.drop_length, Rsm.reset]

/-- The actions of the loop, with the exact condition of each. -/
theorem rsmAction_cases {r r' : Rsm} {o o' : RsOut} (h : rsmAction r o = some (r', o')) :
    (r.rsState = .seekingHeader ∧ 8 ≤ r.acc.length ∧ lenValid (frameLen r.acc) = false ∧
      r' = accDrop 1 r ∧ o' = { o with ev := .resync }) ∨
    (r.rsState = .seekingHeader ∧ 8 ≤ r.acc.length ∧ lenValid (frameLen r.acc) = true ∧
      r' = { r with rsExpected := BitVec.ofNat 11 (frameLen r.acc), rsState := .readingBody } ∧
      o' = { o with ev := .header }) ∨
    (r.rsState = .readingBody ∧ r.rsExpected.toNat ≤ r.acc.length ∧
      r' = { rsState := .seekingHeader, rsExpected := 0, acc := r.acc.drop r.rsExpected.toNat } ∧
      o' = reportFrame (r.acc.take r.rsExpected.toNat) o) := by
  have hbusy : ¬ r.Quiescent := fun hq => by simp [(rsmAction_eq_none_iff r o).2 hq] at h
  cases hs : r.rsState with
  | seekingHeader =>
    have hl : 8 ≤ r.acc.length := Nat.not_lt.1 fun hl => hbusy (Or.inl ⟨hs, hl⟩)
    cases hv : lenValid (frameLen r.acc) with
    | false =>
      rw [rsmAction_discard o hs hl hv] at h
      cases h
      exact Or.inl ⟨rfl, hl, rfl, rfl, rfl⟩
    | true =>
      rw [rsmAction_header o hs hl hv] at h
      cases h
      exact Or.inr (Or.inl ⟨rfl, hl, rfl, rfl, rfl⟩)
  | readingBody =>
    have hl : r.rsExpected.toNat ≤ r.acc.length := Nat.not_lt.1 fun hl => hbusy (Or.inr ⟨hs, hl⟩)
    rw [rsmAction_extract o hs hl] at h
    cases h
    exact Or.inr (Or.inr ⟨rfl, hl, rfl, rfl⟩)

theorem rsmAction_actionsLeft_lt {r r' : Rsm} {o o' : RsOut} (h : rsmAction r o = some (r', o')) :
    actionsLeft r' < actionsLeft r := by
  rcases rsmAction_cases h with ⟨hs, hl, -, rfl, -⟩ | ⟨hs, -, hv, rfl, -⟩ | ⟨hs, hl, rfl, -⟩
  · rw [actionsLeft_seeking hs, actionsLeft_seeking (r := accDrop 1 r) hs, accDrop_acc, List.length_drop]
    omega
  · have hn := rsExpected_toNat hv
    have h8 := (lenValid_iff _).1 hv
    rw [actionsLeft_seeking hs, actionsLeft_reading rfl, if_neg (by dsimp only; omega)]
    exact Nat.lt_succ_self _
  · rw [actionsLeft_reading hs, actionsLeft_seeking rfl]
    dsimp only
    rw [List.length_drop]
    split <;> omega

/-- With as many rounds as actions can be left the loop ends by itself. -/
theorem rsmLoop_reaches_quiescence {rounds : Nat} {r : Rsm} (h : actionsLeft r ≤ rounds) (o : RsOut) :
    (rsmLoop rounds r o).1.Quiescent := by
  induction rounds generalizing r o with
  | zero =>
    refine (rsmAction_eq_none_iff r o).1 (Option.eq_none_iff_forall_ne_some.2 fun p ha => ?_)
    have hlt := rsmAction_actionsLeft_lt ha
    omega
  | succ rounds ih =>
    cases ha : rsmAction r o with
    | none =>
      have hq := (rsmAction_eq_none_iff r o).1 ha
      rwa [rsmLoop_quiescent hq]
    | some p =>
      have hlt := rsmAction_actionsLeft_lt ha
      rw [rsmLoop_action ha]
      exact ih (by omega) p.2

theorem pushByte_quiescent (b : Byte) (r : Rsm) : (pushByte b r).1.Quiescent :=
  rsmLoop_reaches_quiescence (actionsLeft_le_enoughRounds _) _

theorem Rsm.Inv.quiescent {r : Rsm} (h : r.Inv) : r.Quiescent := by
  cases hs : r.rsState with
  | seekingHeader => exact Or.inl ⟨hs, Nat.lt_succ_of_le (h.seeking hs).2⟩
  | readingBody =>
    obtain ⟨-, -, -, hlt, -⟩ := h.reading hs
    exact Or.inr ⟨hs, hlt⟩

/-! ## The source's chunk-wise algorithm (42_reassembler.md R171) -/

/-- A sequence of the loop's actions, with the outputs that each gives by itself. -/
inductive Actions : Rsm → List RsOut → Rsm → Prop where
  | done (r : Rsm) : Actions r [] r
  | act {r r' r'' : Rsm} {o : RsOut} {os : List RsOut} (h : rsmAction r RsOut.idle = some (r', o))
      (hs : Actions r' os r'') : Actions r (o :: os) r''

/-- More bytes behind those held. -/
def appendAcc (r : Rsm) (ys : List Byte) : Rsm := { r with acc := r.acc ++ ys }

theorem appendAcc_cons (r : Rsm) (b : Byte) (bs : List Byte) :
    appendAcc r (b :: bs) = appendAcc (accAppend b r) bs := by
  simp [appendAcc, accAppend]

theorem Actions.single {r r' : Rsm} {o : RsOut} (h : rsmAction r RsOut.idle = some (r', o)) : Actions r [o] r' :=
  .act h (.done r')

theorem Actions.append {r r' r'' : Rsm} {os os' : List RsOut} (h : Actions r os r') (h' : Actions r' os' r'') :
    Actions r (os ++ os') r'' := by
  induction h with
  | done => exact h'
  | act ha _ ih => exact .act ha (ih h')

/-- An action looks only at the front of the accumulator, so bytes behind it change nothing. -/
theorem rsmAction_appendAcc {r r' : Rsm} {o o' : RsOut} (h : rsmAction r o = some (r', o')) (ys : List Byte) :
    rsmAction (appendAcc r ys) o = some (appendAcc r' ys, o') := by
  have hle : r.acc.length ≤ (appendAcc r ys).acc.length := by simp [appendAcc]
  rcases rsmAction_cases h with ⟨hs, hl, hv, rfl, rfl⟩ | ⟨hs, hl, hv, rfl, rfl⟩ | ⟨hs, hl, rfl, rfl⟩
  · have hf : frameLen (appendAcc r ys).acc = frameLen r.acc := frameLen_append _ _ hl
    rw [rsmAction_discard (r := appendAcc r ys) o hs (hl.trans hle) (by rw [hf, hv])]
    simp only [appendAcc, accDrop, List.drop_append_of_le_length (show 1 ≤ r.acc.length by omega)]
  · have hf : frameLen (appendAcc r ys).acc = frameLen r.acc := frameLen_append _ _ hl
    rw [rsmAction_header (r := appendAcc r ys) o hs (hl.trans hle) (by rw [hf, hv]), hf]
    rfl
  · rw [rsmAction_extract (r := appendAcc r ys) o hs (hl.trans hle)]
    simp [appendAcc, List.take_append_of_le_length hl, List.drop_append_of_le_length hl]

theorem Actions.appendAcc {r r' : Rsm} {os : List RsOut} (h : Actions r os r') (ys : List Byte) :
    Actions (appendAcc r ys) os (appendAcc r' ys) := by
  induction h with
  | done => exact .done _
  | act ha _ ih => exact .act (rsmAction_appendAcc ha ys) ih

/-- The chunk-wise loop takes exactly the actions that lead to a state without any. -/
theorem chunkLoop_of_actions {r r' : Rsm} {os : List RsOut} (h : Actions r os r') (hq : r'.Quiescent) {rounds : Nat}
    (hn : actionsLeft r ≤ rounds) : chunkLoop rounds r = (r', os) := by
  induction h generalizing rounds with
  | done r =>
    cases rounds with
    | zero => rfl
    | succ rounds => rw [chunkLoop, (rsmAction_eq_none_iff r _).2 hq]
  | act ha _ ih =>
    have hlt := rsmAction_actionsLeft_lt ha
    cases rounds with
    | zero => omega
    | succ rounds =>
      rw [chunkLoop, ha]
      dsimp only
      rw [ih hq (by omega)]

theorem discardsAndFrames_append (xs ys : List RsOut) :
    discardsAndFrames (xs ++ ys) = discardsAndFrames xs ++ discardsAndFrames ys := List.filter_append ..

/-- Two sequences of outputs with the same packets, and the same discards, packets and drops in the same order. -/
abbrev SameResults (os os' : List RsOut) : Prop :=
  packetsOf os = packetsOf os' ∧ discardsAndFrames os = discardsAndFrames os'

theorem SameResults.append {xs xs' ys ys' : List RsOut} (h : SameResults xs xs') (h' : SameResults ys ys') :
    SameResults (xs ++ ys) (xs' ++ ys') := by
  obtain ⟨hpackets, hdiscards⟩ := h
  obtain ⟨hpackets', hdiscards'⟩ := h'
  simp only [SameResults, packetsOf_append, discardsAndFrames_append, hpackets, hpackets', hdiscards, hdiscards', and_self]

/-- A push is a sequence of actions behind the append: none, one, or the header check and the extraction of 8 bytes. -/
theorem pushByte_actions {r : Rsm} (h : r.Inv) (b : Byte) :
    ∃ os, Actions (accAppend b r) os (pushByte b r).1 ∧ SameResults os [(pushByte b r).2] := by
  have hlen : (r.acc ++ [b]).length = r.acc.length + 1 := List.length_append
  rcases pushByte_cases h b rfl with ⟨hs, hl, -⟩ | ⟨hs, hl, hv, -⟩ | ⟨hs, hl, h8, -⟩ | ⟨hs, hl, h9, hmax, -⟩ |
    ⟨hs, hl, -⟩ | ⟨hs, hl, -, -, -, he⟩
  · rw [pushByte_store (Or.inl ⟨hs, hl⟩)]
    exact ⟨[], .done _, rfl, rfl⟩
  · have hv : lenValid (frameLen (r.acc ++ [b])) = false := lenValid_eq_false hv
    rw [pushByte_noise hs (by omega) hv]
    exact ⟨_, .single (rsmAction_discard (r := accAppend b r) _ hs hl.ge hv), rfl, rfl⟩
  · have hv : lenValid (frameLen (r.acc ++ [b])) = true := (lenValid_iff _).2 (by omega)
    have hd := decodeFrame_of_length_lt_ten hl.ge (hl.trans h8.symm) (by omega)
    have hn : (r.acc ++ [b]).length = (BitVec.ofNat 11 (frameLen (r.acc ++ [b]))).toNat := by
      rw [rsExpected_toNat hv, hl, h8]
    rw [pushByte_eight hs (by omega) h8]
    refine ⟨_, .act (rsmAction_header (r := accAppend b r) _ hs hl.ge hv) (.single (rsmAction_whole _ rfl hn)), ?_⟩
    dsimp only
    rw [accAppend_acc, reportFrame_error hd]
    exact ⟨rfl, rfl⟩
  · have hv : lenValid (frameLen (r.acc ++ [b])) = true := (lenValid_iff _).2 (by omega)
    rw [pushByte_header hs (by omega) hv h9]
    exact ⟨_, .single (rsmAction_header (r := accAppend b r) _ hs hl.ge hv), rfl, rfl⟩
  · rw [pushByte_store (Or.inr ⟨hs, hl⟩)]
    exact ⟨[], .done _, rfl, rfl⟩
  · rw [he]
    exact ⟨_, .single (rsmAction_whole (r := accAppend b r) _ hs hl), rfl, rfl⟩

/-- Feeding byte by byte takes the actions that the whole chunk takes at once. -/
theorem feedBytes_actions {r : Rsm} (h : r.Inv) (chunk : List Byte) :
    ∃ os, Actions (appendAcc r chunk) os (feedBytes chunk r).1 ∧ SameResults os (feedBytes chunk r).2 := by
  induction chunk generalizing r with
  | nil => exact ⟨[], by simpa [appendAcc] using Actions.done r, rfl, rfl⟩
  | cons b bs ih =>
    obtain ⟨os, hacts, hsame⟩ := pushByte_actions h b
    obtain ⟨os', hacts', hsame'⟩ := ih (pushByte_inv h b)
    refine ⟨os ++ os', ?_, hsame.append hsame'⟩
    rw [appendAcc_cons]
    exact (hacts.appendAcc bs).append hacts'

end Sys2Proof.Machine

namespace Sys2Proof

/-! ## Candidate headers in a stream (30_encoding.md R94) -/

theorem leNat_take_succ (xs : List Byte) (n : Nat) :
    leNat (xs.take (n + 1)) = (xs.getD 0 0).toNat + 256 * leNat ((xs.drop 1).take n) := by
  cases xs <;> simp

theorem getD_drop_add (xs : List Byte) (p i : Nat) : (xs.drop p).getD i 0 = xs.getD (p + i) 0 := by
  simp [List.getD_eq_getElem?_getD]

theorem leNat_take_eight (xs : List Byte) : leNat (xs.take 8) =
    leNat [xs.getD 0 0, xs.getD 1 0, xs.getD 2 0, xs.getD 3 0, xs.getD 4 0, xs.getD 5 0, xs.getD 6 0, xs.getD 7 0] := by
  simp only [leNat_take_succ, List.take_zero, List.drop_drop, getD_drop_add, leNat_cons, Nat.reduceAdd]

/-- total_length of any bytes, those that are missing counted as zero. -/
theorem frameLen_eq_byteLen (xs : List Byte) :
    frameLen xs = Machine.byteLen (xs.getD 0 0) (xs.getD 1 0) (xs.getD 2 0) (xs.getD 3 0) (xs.getD 4 0) (xs.getD 5 0)
      (xs.getD 6 0) := by
  rw [← frameLen_cons _ _ _ _ _ _ _ (xs.getD 7 0) [], frameLen_eq, frameLen_eq, le64, le64, leNat_take_eight]
  rfl

/-- The header check at position `p` of a stream, by its bytes. -/
theorem lenValid_candidate_iff (stream : List Byte) (p : Nat) : lenValid (frameLen (stream.drop p)) = true ↔
    stream.getD (p + 2) 0 = 0 ∧ stream.getD (p + 3) 0 = 0 ∧ stream.getD (p + 4) 0 = 0 ∧ stream.getD (p + 5) 0 = 0 ∧
    (stream.getD (p + 6) 0).toNat % 2 = 0 ∧ (stream.getD (p + 1) 0).toNat < 128 ∧
    8 ≤ (stream.getD (p + 1) 0).toNat * 16 + (stream.getD p 0).toNat / 16 ∧
    (stream.getD (p + 1) 0).toNat * 16 + (stream.getD p 0).toNat / 16 ≤ 1024 := by
  rw [frameLen_eq_byteLen, lenValid_byteLen_iff]
  simp only [getD_drop_add, Nat.add_zero]
  refine and_congr_right fun _ => and_congr_right fun _ => and_congr_right fun _ => and_congr_right fun _ =>
    and_congr_right fun _ => and_congr_right fun h => ?_
  rw [Nat.mod_eq_of_lt h]

end Sys2Proof

namespace Sys2Proof.Machine

/-- Two bytes settle these candidates: the second announces too much, or both announce less than 8. -/
theorem candidate_invalid_of_two_bytes {stream : List Byte} {p : Nat}
    (h : 128 ≤ (stream.getD (p + 1) 0).toNat ∨
      ((stream.getD (p + 1) 0).toNat = 0 ∧ (stream.getD p 0).toNat < 128)) :
    lenValid (frameLen (stream.drop p)) = false := by
  rw [← Bool.not_eq_true, lenValid_candidate_iff]
  rintro ⟨-, -, -, -, -, hlt, hmin, -⟩
  omega

/-- A frame whose byte 1 is zero is shorter than 16 bytes and of at least 10, which byte 0 shows. -/
theorem plainFrame_byte_zero_large {payload : List Byte} (h : payload.length ≤ 1014) (flag ptype cmd : Byte)
    (h1 : (plainFrame payload flag ptype cmd).getD 1 0 = 0) :
    128 ≤ ((plainFrame payload flag ptype cmd).getD 0 0).toNat := by
  have hn := congrArg BitVec.toNat h1
  change (BitVec.ofNat 8 ((10 + payload.length) / 16)).toNat = 0 at hn
  change 128 ≤ (BitVec.ofNat 8 ((10 + payload.length) % 16 * 16 + flag.toNat % 16)).toNat
  rw [BitVec.toNat_ofNat] at hn ⊢
  omega

/-- Of two neighbouring bytes, the first large wherever the second is zero, a candidate that starts at most four bytes before
them examines all bits, and fails. -/
theorem candidate_invalid_of_near {stream : List Byte} {n p : Nat}
    (hlarge : stream.getD (n + 1) 0 = 0 → 128 ≤ (stream.getD n 0).toNat) (hp : p < n) (hnear : n - p ≤ 4) :
    lenValid (frameLen (stream.drop p)) = false := by
  have hnot : ¬ (stream.getD n 0 = 0 ∧ stream.getD (n + 1) 0 = 0) := fun ⟨hz, h1⟩ => by
    have := hlarge h1
    rw [hz] at this
    exact absurd this (by decide)
  rw [← Bool.not_eq_true, lenValid_candidate_iff]
  rintro ⟨h2, h3, h4, h5, -, hlt, -, -⟩
  obtain rfl | rfl | rfl | rfl : n = p + 1 ∨ n = p + 2 ∨ n = p + 3 ∨ n = p + 4 := by omega
  · exact absurd (hlarge h2) (Nat.not_le.2 hlt)
  · exact hnot ⟨h2, h3⟩
  · exact hnot ⟨h3, h4⟩
  · exact hnot ⟨h4, h5⟩

theorem candidate_before_frame_invalid {g payload : List Byte} (flag ptype cmd : Byte) {p : Nat}
    (h : payload.length ≤ 1014) (hp : p < g.length) (h4 : g.length - p ≤ 4) :
    lenValid (frameLen ((g ++ plainFrame payload flag ptype cmd).drop p)) = false := by
  have hframe (i : Nat) : (g ++ plainFrame payload flag ptype cmd).getD (g.length + i) 0 =
      (plainFrame payload flag ptype cmd).getD i 0 := by
    rw [List.getD_append_right _ _ _ _ (by omega), Nat.add_sub_cancel_left]
  have hlarge := plainFrame_byte_zero_large h flag ptype cmd
  rw [← hframe 0, ← hframe 1] at hlarge
  exact candidate_invalid_of_near hlarge hp h4

theorem noFalseHeader_of_length_le_four {g payload : List Byte} (flag ptype cmd : Byte) (h : payload.length ≤ 1014)
    (h4 : g.length ≤ 4) : NoFalseHeader g.length (g ++ plainFrame payload flag ptype cmd) :=
  fun _ hp => candidate_before_frame_invalid flag ptype cmd h hp (by omega)

/-- A run of one byte that is no header by itself: the bytes 80 to FF, and 00. -/
theorem noFalseHeader_of_run {c : Byte} (hc : 128 ≤ c.toNat ∨ c.toNat = 0) (n : Nat) {payload : List Byte}
    (flag ptype cmd : Byte) (h : payload.length ≤ 1014) :
    NoFalseHeader n (List.replicate n c ++ plainFrame payload flag ptype cmd) := by
  intro p hp
  rcases Nat.lt_or_ge (p + 1) n with hlt | hge
  · have hget {i : Nat} (hi : i < n) : (List.replicate n c ++ plainFrame payload flag ptype cmd).getD i 0 = c := by
      rw [List.getD_append _ _ _ _ (by simpa using hi), List.getD_replicate _ hi]
    refine candidate_invalid_of_two_bytes ?_
    rw [hget hp, hget hlt]
    omega
  · exact candidate_before_frame_invalid flag ptype cmd h (by simpa using hp) (by rw [List.length_replicate]; omega)

/-! ## Noise before a frame (42_reassembler.md R163, R176) -/

/-- Feeding from the seven bytes that are held before the first check. -/
theorem feedBytes_after_seven {xs ys : List Byte} (h7 : xs.length = 7) :
    feedBytes (xs ++ ys) Rsm.reset =
      ((feedBytes ys { rsState := .seekingHeader, rsExpected := 0, acc := xs }).1,
        List.replicate 7 RsOut.idle ++ (feedBytes ys { rsState := .seekingHeader, rsExpected := 0, acc := xs }).2) := by
  have hfill : feedBytes xs Rsm.reset =
      ({ rsState := .seekingHeader, rsExpected := 0, acc := xs }, List.replicate 7 RsOut.idle) := by
    rw [← h7]
    exact feedBytes_fill xs [] (by simp [h7])
  rw [feedBytes_append, hfill]

/-- Rejected noise costs one discard for each of its bytes, and what follows fares as if it came first. -/
theorem feedBytes_rejected_noise {g rest : List Byte} {outs : List RsOut} {r : Rsm} (h7 : 7 ≤ rest.length)
    (hn : NoFalseHeader g.length (g ++ rest))
    (hrest : feedBytes rest Rsm.reset = (r, List.replicate 7 RsOut.idle ++ outs)) :
    feedBytes (g ++ rest) Rsm.reset =
      (r, List.replicate 7 RsOut.idle ++ List.replicate g.length { ev := .resync, err := none, pkt := none } ++ outs) := by
  have hnoise := feedBytes_noise g.length (g ++ rest) (by simpa using h7) hn
  rw [List.drop_left, List.take_length_add_append] at hnoise
  rw [← List.take_append_drop 7 rest, feedBytes_after_seven (List.length_take_of_le h7)] at hrest
  obtain ⟨hr, houts⟩ := Prod.mk.inj hrest
  rw [← List.take_append_drop 7 rest, ← List.append_assoc, feedBytes_append, hnoise, hr, List.append_cancel_left houts]

/-- What an extracted frame reports is a packet or a drop, never a discard of a byte. -/
theorem reportFrame_ev_ne_resync (frame : List Byte) (o : RsOut) : (reportFrame frame o).ev ≠ .resync := by
  cases hd : decodeFrame frame with
  | packet d =>
    rw [reportFrame_packet hd]
    nofun
  | error e =>
    rw [reportFrame_error hd]
    nofun

/-- A frame that ENCODE can write is reported as its packet, or dropped for its payload_type byte. -/
theorem packetsOf_reportFrame_plainFrame {payload : List Byte} (h : payload.length ≤ 1014) (flag ptype cmd : Byte) :
    packetsOf [reportFrame (plainFrame payload flag ptype cmd) RsOut.idle] =
      if ptype.toNat ≤ 1 then [plainPacket payload flag ptype cmd] else [] := by
  have hlen := plainFrame_length payload flag ptype cmd
  split
  · next ht =>
    rw [reportFrame_plainFrame h ht]
    rfl
  · next ht =>
    rcases reportFrame_cases ((frameLen_plainFrame h flag ptype cmd).trans hlen.symm) (by omega) RsOut.idle with
      ⟨-, he⟩ | ⟨-, ht', -⟩
    · rw [he]
      rfl
    · exact absurd ht' ht

/-- The core of 42_reassembler.md R176: the noise is discarded and the frame behind it extracted whole. -/
theorem feedBytes_noise_frame {g payload : List Byte} (flag ptype cmd : Byte) (h : payload.length ≤ 1014)
    (hn : NoFalseHeader g.length (g ++ plainFrame payload flag ptype cmd)) :
    feedBytes (g ++ plainFrame payload flag ptype cmd) Rsm.reset =
      (Rsm.reset,
        List.replicate 7 RsOut.idle ++ List.replicate g.length { ev := .resync, err := none, pkt := none } ++
          ([{ ev := .header, err := none, pkt := none }] ++
            (List.replicate (payload.length + 1) RsOut.idle ++
              [reportFrame (plainFrame payload flag ptype cmd) RsOut.idle]))) := by
  have hlen := plainFrame_length payload flag ptype cmd
  have hframe := feedBytes_frame (frame := plainFrame payload flag ptype cmd) (by omega) (by omega)
    ((frameLen_plainFrame h flag ptype cmd).trans hlen.symm)
  rw [show (plainFrame payload flag ptype cmd).length - 9 = payload.length + 1 by omega, List.append_assoc,
    List.append_assoc] at hframe
  exact feedBytes_rejected_noise (by omega) hn hframe

theorem packetsOf_replicate_resync (n : Nat) :
    packetsOf (List.replicate n { ev := .resync, err := none, pkt := none }) = [] := by
  simp [packetsOf]

/-- What is seen of it: a discard for each noise byte, the frame's packet if its type is one of the two, and the initial
registers. -/
theorem feedBytes_noise_frame_results {g payload : List Byte} (flag ptype cmd : Byte) (h : payload.length ≤ 1014)
    (hn : NoFalseHeader g.length (g ++ plainFrame payload flag ptype cmd)) :
    ∃ outs, feedBytes (g ++ plainFrame payload flag ptype cmd) Rsm.reset = (Rsm.reset, outs) ∧
      (outs.filter fun o => decide (o.ev = .resync)).length = g.length ∧
      packetsOf outs = if ptype.toNat ≤ 1 then [plainPacket payload flag ptype cmd] else [] := by
  refine ⟨_, feedBytes_noise_frame flag ptype cmd h hn, ?_, ?_⟩
  · simp [RsOut.idle, reportFrame_ev_ne_resync]
  · rw [← packetsOf_reportFrame_plainFrame h]
    simp only [packetsOf_append, packetsOf_replicate_idle, packetsOf_replicate_resync, List.nil_append]
    rfl

theorem noiseThenFrameRecovers {g payload : List Byte} {flag ptype cmd : Byte} {s : State} (h : payload.length ≤ 1014)
    (hs : s.rsm = Rsm.reset) (hn : NoFalseHeader g.length (g ++ plainFrame payload flag ptype cmd)) :
    NoiseThenFrameRecovers g payload flag ptype cmd s := by
  obtain ⟨outs, hfeed, hdiscards, hpackets⟩ := feedBytes_noise_frame_results flag ptype cmd h hn
  refine ⟨giveRsm Rsm.reset outs s, ?_, rfl, hdiscards, hpackets, rfl⟩
  rw [exec_rsFeed, giveChunk_eq_giveRsm, hs, hfeed]

/-- A valid frame behind rejected noise gives exactly its packet. -/
theorem feedBytes_noise_valid_frame {g : List Byte} {f : FrameFields} (hf : f.Valid)
    (hn : NoFalseHeader g.length (g ++ f.bytes)) :
    ∃ outs, feedBytes (g ++ f.bytes) Rsm.reset = (Rsm.reset, outs) ∧ packetsOf outs = [f.delivery] := by
  obtain ⟨outs, hfeed, -, hpackets⟩ := feedBytes_noise_frame_results f.flag f.ptype f.cmd hf.1 hn
  exact ⟨outs, hfeed, hpackets.trans (if_pos hf.2)⟩

/-- Eight bytes that are no valid header cost the oldest. -/
theorem feedBytes_invalid_header {h : List Byte} (h8 : h.length = 8) (hv : lenValid (frameLen h) = false) :
    feedBytes h Rsm.reset =
      ({ rsState := .seekingHeader, rsExpected := 0, acc := h.drop 1 },
        List.replicate 7 RsOut.idle ++ [{ ev := .resync, err := none, pkt := none }]) := by
  rw [← Bool.not_eq_true, lenValid_iff] at hv
  rcases feedBytes_eight_cases h8 with ⟨-, hf⟩ | ⟨hl, -⟩ | ⟨h9, hmax, -⟩
  · exact hf
  · omega
  · omega

/-! ## Whole frames (42_reassembler.md R166) -/

/-- Bytes that announce their own number: nothing but idle outputs and the header's before the last byte, and with it
DECODE's report. -/
theorem feedBytes_whole_frame {frame : List Byte} (h8 : 8 ≤ frame.length) (hmax : frame.length ≤ 1024)
    (hl : frameLen frame = frame.length) :
    ∃ outs, feedBytes frame Rsm.reset = (Rsm.reset, outs ++ [reportFrame frame RsOut.idle]) ∧
      outs.length = frame.length - 1 ∧ packetsOf outs = [] ∧ ∀ o ∈ outs, o.ev = .none ∨ o.ev = .header := by
  have hidle {n : Nat} {o : RsOut} (ho : o ∈ List.replicate n RsOut.idle) : o.ev = .none ∨ o.ev = .header :=
    Or.inl (congrArg RsOut.ev (List.eq_of_mem_replicate ho))
  by_cases h9 : 9 ≤ frame.length
  · refine ⟨_, feedBytes_frame h9 hmax hl, by simp; omega, ?_, ?_⟩
    · simp only [packetsOf_append, packetsOf_replicate_idle]
      rfl
    · simp only [List.forall_mem_append, List.forall_mem_singleton]
      exact ⟨⟨fun _ => hidle, Or.inr trivial⟩, fun _ => hidle⟩
  · have hlen : frame.length = 8 := by omega
    have hd := decodeFrame_of_length_lt_ten h8 hl.symm (by omega)
    refine ⟨List.replicate 7 RsOut.idle, ?_, by rw [hlen, List.length_replicate], packetsOf_replicate_idle 7,
      fun _ => hidle⟩
    rcases feedBytes_eight_cases hlen with ⟨hv, -⟩ | ⟨-, hf⟩ | ⟨hv, -⟩
    · omega
    · rw [hf, reportFrame_error hd]
      rfl
    · omega

/-! ## A header that claims four bytes (42_reassembler.md R177) -/

theorem zero_bytes_header_invalid {b0 b6 b7 : Byte} (h0 : b0.toNat < 128) :
    lenValid (frameLen [b0, 0, 0, 0, 0, 0, b6, b7]) = false :=
  candidate_invalid_of_two_bytes (stream := [b0, 0, 0, 0, 0, 0, b6, b7]) (p := 0) (Or.inr ⟨rfl, h0⟩)

/-- Neither the header nor a candidate behind it passes: two bytes announce less than 8, or the frame is near. -/
theorem noFalseHeader_of_zero_bytes {b0 b6 b7 : Byte} (h0 : b0.toNat < 128) {payload : List Byte} (flag ptype cmd : Byte)
    (h : payload.length ≤ 1014) :
    NoFalseHeader 8 ([b0, 0, 0, 0, 0, 0, b6, b7] ++ plainFrame payload flag ptype cmd) := by
  intro p hp
  by_cases hnear : 4 ≤ p
  · exact candidate_before_frame_invalid flag ptype cmd h hp (Nat.sub_le_sub_left hnear 8)
  · refine candidate_invalid_of_two_bytes (Or.inr ?_)
    obtain rfl | rfl | rfl | rfl : p = 0 ∨ p = 1 ∨ p = 2 ∨ p = 3 := by omega
    · exact ⟨rfl, h0⟩
    all_goals exact ⟨rfl, Nat.zero_lt_succ 127⟩

/-- Four and the flag, in byte 0. -/
theorem byte_zero_claiming_four (flag : BitVec 4) : (BitVec.ofNat 8 (0x40 + flag.toNat)).toNat < 128 := by
  rw [BitVec.toNat_ofNat]
  omega

/-! ## The statements -/

/-- Settles O31: every action lowers the bound on the actions left, and the rounds of a push cover it. -/
theorem pushRunsToQuiescence : Obligations.PushRunsToQuiescence :=
  fun s b => ⟨_, exec_rsPush b s, pushByte_quiescent b s.rsm⟩

/-- Settles O29, by the rows of R170 in SeekingHeader. -/
theorem pushWhileSeeking : Obligations.PushWhileSeeking := by
  intro s b hs hr
  rcases pushByte_cases hs b rfl with ⟨-, hl, he⟩ | ⟨-, hl, hv, he⟩ | ⟨-, hl, h8, he⟩ | ⟨-, hl, h9, h1024, he⟩ |
    ⟨hr', -⟩ | ⟨hr', -⟩
  case inr.inr.inr.inr.inl | inr.inr.inr.inr.inr => exact absurd (hr.symm.trans hr') nofun
  all_goals rw [exec_rsPush_of_no_packet he rfl]
  · exact ⟨fun _ => rfl, by omega⟩
  · exact ⟨by omega, fun _ => ⟨fun _ => rfl, by omega, by omega⟩⟩
  · exact ⟨by omega, fun _ => ⟨by omega, fun _ => rfl, by omega⟩⟩
  · exact ⟨by omega, fun _ => ⟨by omega, by omega, fun _ _ => rfl⟩⟩

/-- Settles O30, by the rows of R170 in ReadingBody. -/
theorem pushWhileReading : Obligations.PushWhileReading := by
  intro s b hs hr
  rcases pushByte_cases hs b rfl with ⟨hr', -⟩ | ⟨hr', -⟩ | ⟨hr', -⟩ | ⟨hr', -⟩ | ⟨-, hl, he⟩ |
    ⟨-, hl, -, h9, h1024, he⟩
  case inl | inr.inl | inr.inr.inl | inr.inr.inr.inl => exact absurd (hr.symm.trans hr') nofun
  · rw [exec_rsPush_of_no_packet he rfl]
    exact ⟨fun _ => rfl, by omega⟩
  · refine ⟨by omega, fun _ => ⟨by omega, h1024, fun d hd => ?_, fun e hd => ?_⟩⟩
    · rw [reportFrame_packet hd] at he
      exact exec_rsPush_of_packet he rfl
    · rw [reportFrame_error hd] at he
      exact exec_rsPush_of_no_packet he rfl

/-- Settles O32, by the rows of R170: only a completed frame can be reported with an error. -/
theorem pushReportsOnlyMalformedFrame : Obligations.PushReportsOnlyMalformedFrame := by
  intro s b hs
  refine ⟨_, _, exec_rsPush b s, rfl, ?_⟩
  rcases pushByte_cases hs b rfl with ⟨-, hl, he⟩ | ⟨-, hl, hv, he⟩ | ⟨-, hl, h8, he⟩ | ⟨-, hl, h9, -, he⟩ |
    ⟨hr, hl, he⟩ | ⟨-, -, hf, h9, -, he⟩ <;> rw [he]
  · exact ⟨Or.inl rfl, iff_of_false nofun nofun, iff_of_false nofun (by omega)⟩
  · exact ⟨Or.inl rfl, iff_of_false nofun nofun, iff_of_false nofun (by omega)⟩
  · exact ⟨Or.inr rfl, iff_of_true rfl rfl, iff_of_true rfl (by omega)⟩
  · exact ⟨Or.inl rfl, iff_of_false nofun nofun, iff_of_false nofun (by omega)⟩
  · obtain ⟨-, -, h8, -, hf⟩ := hs.reading hr
    have hf := (frameLen_append s.rsm.acc [b] h8).trans hf
    exact ⟨Or.inl rfl, iff_of_false nofun nofun, iff_of_false nofun (by omega)⟩
  · rcases reportFrame_cases hf h9 RsOut.idle with ⟨hc, ho⟩ | ⟨h10, ht, ho⟩ <;> rw [ho]
    · exact ⟨Or.inr rfl, iff_of_true rfl rfl, iff_of_true rfl (by omega)⟩
    · exact ⟨Or.inl rfl, iff_of_false nofun nofun, iff_of_false nofun (by omega)⟩

/-- Settles O34: the pushes are one-byte chunks, and chunks in order are their concatenation. -/
theorem feedIsPushesInOrder : Obligations.FeedIsPushesInOrder := by
  refine ⟨fun chunk s => ?_, fun s => ?_⟩
  · obtain ⟨t, hrun, ht⟩ := runOps_rsPush chunk s
    have hout := congrArg (fun u : State => { u with out := (giveChunk chunk s).out }) ht
    exact ⟨t, _, hrun, (exec_rsFeed chunk s).trans (congrArg Host.Outcome.next hout.symm)⟩
  · rw [exec_rsFeed, giveChunk_eq_giveRsm, feedBytes_nil, giveRsm_of_no_packets packetsOf_nil]

/-- Settles O38: RS.CLEAR and the `reset` input both put the reset state in place, and its views evaluate. -/
theorem clearIsReset : Obligations.ClearIsReset := by
  refine ⟨fun _ => rfl, fun _ _ _ _ _ _ => rfl, fun s t ht => ?_⟩
  cases ht
  exact ⟨rfl, rfl, rfl, rfl, rfl, rfl, rfl⟩

/-- Settles O37: actions look only at the front of the accumulator, so the pushes' actions, one push after another, are the
actions of the whole chunk. -/
theorem chunkwiseGivesSameResults : Obligations.ChunkwiseGivesSameResults := by
  intro chunk s hs
  obtain ⟨os, hacts, hpackets, hdiscards⟩ := feedBytes_actions (r := s.rsm) hs chunk
  have hloop : feedChunkwise chunk s.rsm = ((feedBytes chunk s.rsm).1, os) :=
    chunkLoop_of_actions hacts (feedBytes_inv hs chunk).quiescent (actionsLeft_le_enoughRounds _)
  rw [hloop]
  exact ⟨_, exec_rsFeed chunk s, rfl, hpackets.symm, hdiscards.symm⟩

/-- Settles O42: the noise costs one discard a byte, and the frame behind it is fed as if it came first. -/
theorem noiseWithoutFalseHeaderIsRejected : Obligations.NoiseWithoutFalseHeaderIsRejected :=
  fun _ _ _ _ _ _ h hs hn => noiseThenFrameRecovers h hs hn

/-- Settles O43: none of these noises has a candidate that passes the header check. -/
theorem shortNoiseAndRunsAreRejected : Obligations.ShortNoiseAndRunsAreRejected := by
  intro g payload flag ptype cmd s h hs hg
  refine noiseThenFrameRecovers h hs ?_
  rcases hg with h4 | hff | hzero
  · exact noFalseHeader_of_length_le_four flag ptype cmd h h4
  · rw [hff, List.length_replicate]
    exact noFalseHeader_of_run (by decide) _ flag ptype cmd h
  · rw [hzero, List.length_replicate]
    exact noFalseHeader_of_run (by decide) _ flag ptype cmd h

/-- Settles O44: near the frame its first two bytes decide; the bytes of every other candidate that the check looks at decide
by R94, and with seven noise bytes left they are all noise. -/
theorem candidateHeadersInNoise : Obligations.CandidateHeadersInNoise := by
  intro g payload stream flag ptype cmd p h hp hstream
  refine ⟨fun h4 => ?_, fun _ _ => lenValid_candidate_iff stream p, fun h7 => ?_⟩
  · rw [hstream]
    exact candidate_before_frame_invalid flag ptype cmd h hp h4
  · have hget {i : Nat} (hi : i < g.length) : stream.getD i 0 = g.getD i 0 := by
      rw [hstream, List.getD_append _ _ _ _ hi]
    rw [lenValid_candidate_iff, hget hp, hget (i := p + 1) (by omega), hget (i := p + 2) (by omega),
      hget (i := p + 3) (by omega), hget (i := p + 4) (by omega), hget (i := p + 5) (by omega),
      hget (i := p + 6) (by omega)]

/-- The false header of 70_reset_and_hazards.md R243: after six noise bytes, the first byte of a frame of 16 bytes with flag 0
completes a candidate whose header announces 16 bytes, and the body that it starts ends inside the frame. -/
theorem sixNoiseBytes_leave_remainder :
    (feedBytes ([0, 1, 0, 0, 0, 0] ++ plainFrame [0, 0, 0, 0, 0, 0] 0 0 0) Rsm.reset).1 ≠ Rsm.reset := by decide

/-- Refutes O46: after the noise 00 01 00 00 00 00 a frame of 16 bytes leaves bytes behind in the reassembler. -/
theorem not_noiseOfSixBytesIsRejected : ¬ Obligations.NoiseOfSixBytesIsRejected := by
  intro h
  obtain ⟨t, ht, hreset, -⟩ := h [0, 1, 0, 0, 0, 0] [0, 0, 0, 0, 0, 0] 0 0 0 State.reset (by decide) rfl (by decide)
  cases (exec_rsFeed _ _).symm.trans ht
  exact sixNoiseBytes_leave_remainder hreset

/-- Settles O47: the bytes are consumed with the last, and DECODE decides only what is reported. -/
theorem wholeFrameIsConsumed : Obligations.WholeFrameIsConsumed := by
  intro frame s hs hl h8 hmax
  obtain ⟨outs, hfeed, hlen, hnone, hev⟩ := feedBytes_whole_frame h8 hmax hl
  rw [← hs] at hfeed
  refine ⟨outs, fun d hd => ?_, fun e hd => ⟨decodeFrame_error_of_length h8 hl.symm hd, ?_⟩, hlen, hnone, hev⟩
  · rw [reportFrame_packet hd] at hfeed
    rw [exec_rsFeed, giveChunk_eq_giveRsm, hfeed, giveRsm, packetsOf_append, hnone]
    rfl
  · rw [reportFrame_error hd] at hfeed
    rw [exec_rsFeed, giveChunk_eq_giveRsm, hfeed, giveRsm_of_no_packets (by rw [packetsOf_append, hnone]; rfl)]
    rfl

/-- Settles O49: below the announced length a byte is only stored, and no codec operation touches the registers. -/
theorem parkedBodyStaysParked : Obligations.ParkedBodyStaysParked := by
  intro s hs hr
  refine ⟨fun xs hxs => ?_, fun i t hp ht => ?_⟩
  · have hfeed := feedBytes_body xs s.rsm.acc (n := s.rsm.rsExpected) (by omega)
    rw [← hr] at hfeed
    rw [exec_rsFeed, giveChunk_eq_giveRsm, hfeed, giveRsm_of_no_packets (packetsOf_replicate_idle _)]
    rfl
  · rcases exec_cases ht with ⟨-, hrsm, -⟩ | ⟨_, -, rfl⟩ | ⟨hp', -⟩ | ⟨hp', -⟩
    · exact hrsm
    · rfl
    · exact absurd hp' hp
    · exact absurd hp' hp

/-- Settles O39: the pushes are the frame fed at once, which gives its packet with the last byte. -/
theorem splitDelivery : Obligations.SplitDelivery := by
  intro payload flag ptype cmd s s' h htype hs
  have ht : ptype.toNat ≤ 1 := by rcases htype with rfl | rfl <;> decide
  have hlen := plainFrame_length payload flag ptype cmd
  obtain ⟨outs, hfeed, hcount, hnone, -⟩ := feedBytes_whole_frame (frame := plainFrame payload flag ptype cmd) (by omega)
    (by omega) ((frameLen_plainFrame h flag ptype cmd).trans hlen.symm)
  rw [reportFrame_plainFrame h ht] at hfeed
  obtain ⟨u, hrun, hu⟩ := runOps_rsPush (plainFrame payload flag ptype cmd) s'
  rw [giveChunk_eq_giveRsm, hs, hfeed] at hu
  rw [hs, hfeed] at hrun
  have hdelivered := congrArg State.delivered hu
  refine ⟨_, _, u, outs, exec_encode_of_le h flag ptype cmd s, giveFrame_encFrame _ s, hrun, hcount, hnone,
    congrArg State.rsm hu, hdelivered.trans ?_⟩
  rw [giveRsm_delivered, packetsOf_append, hnone]
  rfl

/-- Settles O40: the stream is noise and a valid frame, twice; seven FF bytes and any single byte are rejected. -/
theorem resynchronizationYieldsBothFrames : Obligations.ResynchronizationYieldsBothFrames := by
  intro f f' g chunks s hf hf' hs hchunks
  obtain ⟨outs, hfeed, hpackets⟩ := feedBytes_noise_valid_frame (g := List.replicate 7 0xFF) hf
    (noFalseHeader_of_run (by decide) 7 f.flag f.ptype f.cmd hf.1)
  obtain ⟨outs', hfeed', hpackets'⟩ := feedBytes_noise_valid_frame (g := [g]) hf'
    (noFalseHeader_of_length_le_four f'.flag f'.ptype f'.cmd hf'.1 (by simp))
  have hall : feedBytes chunks.flatten Rsm.reset = (Rsm.reset, outs ++ outs') := by
    rw [hchunks, List.append_assoc, feedBytes_append, hfeed, hfeed']
  have hboth : packetsOf (outs ++ outs') = [f.delivery, f'.delivery] := by
    rw [packetsOf_append, hpackets, hpackets']
    rfl
  obtain ⟨t, hrun, ht⟩ := runOps_rsFeed chunks s
  rw [giveChunk_eq_giveRsm, hs, hall] at ht
  rw [hs, hall] at hrun
  have hdelivered := congrArg State.delivered ht
  refine ⟨t, _, hrun, hboth, hdelivered.trans ?_, congrArg State.rsm ht⟩
  rw [giveRsm_delivered, hboth]

/-- Settles O52: the header is discarded at its eighth byte, and no candidate in it passes before the frame. -/
theorem headerClaimingFourIsNoise : Obligations.HeaderClaimingFourIsNoise := by
  rintro rsvd flag header s hs rfl
  have h0 := byte_zero_claiming_four flag
  refine ⟨?_, fun payload flag' ptype cmd h => noiseThenFrameRecovers h hs (noFalseHeader_of_zero_bytes h0 _ _ _ h)⟩
  rw [exec_rsFeed, giveChunk_of_seven_idle hs rfl (feedBytes_invalid_header rfl (zero_bytes_header_invalid h0))]

end Sys2Proof.Machine

/-! PROOFS. The statements about exceptions and the order of operations (60_exceptions.md). -/

namespace Sys2Proof.Machine

/-! ## What each side does, the same in every state (10_state.md R25) -/

/-- ENCODE and DECODE read nothing of the state: their outcome and the bytes for the transport are the operands' alone. -/
theorem exec_codec_uniform {i : Instr} (h : i.port ≠ .rsm) :
    ∃ o bytes, ∀ s, exec i s = .next { s with out := o, outbound := s.outbound ++ bytes } := by
  cases i with
  | encode payload flag ptype cmd =>
    simp only [exec, execEncode]
    cases encodeFrame payload flag ptype cmd with
    | frame bytes => exact ⟨_, bytes, fun _ => rfl⟩
    | error e => exact ⟨_, [], fun s => by rw [List.append_nil]; rfl⟩
  | decode frame => exact ⟨_, [], fun s => by rw [List.append_nil, exec_decode]⟩
  | _ => exact absurd rfl h

/-- `exec_rsm` with one chunk for all states: which bytes an operation feeds does not depend on the state it runs in. -/
theorem exec_rsm_uniform {j : Instr} (h : j.port = .rsm) :
    (∃ chunk, ∀ s, exec j s = .next (giveChunk chunk s)) ∨ ∀ s, exec j s = .next (resetRsm s) := by
  cases j with
  | encode => cases h
  | decode => cases h
  | rsPush b => exact Or.inl ⟨[b], fun _ => rfl⟩
  | rsClear => exact Or.inr fun _ => rfl
  | rsFeed | hdr | hdrTx | frameNone | frameString => exact Or.inl ⟨_, fun _ => rfl⟩

/-! ## The statements -/

/-- Settles O13: the codec answers a result or an error, RSM feeds a chunk or clears. -/
theorem everyInstructionCompletes : Obligations.EveryInstructionCompletes := exec_completes

/-- Settles O15: the codec writes the outbound record, RSM its registers and the delivered record, and neither reads what
the other writes. -/
theorem codecCommutesWithReassembler : Obligations.CodecCommutesWithReassembler := by
  intro i j s hi hj
  obtain ⟨o, bytes, hcodec⟩ := exec_codec_uniform hi
  rcases exec_rsm_uniform hj with ⟨chunk, hrsm⟩ | hrsm
  · exact ⟨_, _, _, _, hcodec s, hrsm _, hrsm s, hcodec _, rfl, rfl, rfl⟩
  · exact ⟨_, _, _, _, hcodec s, hrsm _, hrsm s, hcodec _, rfl, rfl, rfl⟩

end Sys2Proof.Machine

/-! PROOFS. The statements about reset and hazards (70_reset_and_hazards.md). -/

namespace Sys2Proof.Machine

/-! ## False sync (70_reset_and_hazards.md R243) -/

/-- Cutting a stream behind the eighth byte of a candidate leaves every header check before it as it was. -/
theorem NoFalseHeader.take {p : Nat} {stream : List Byte} (hn : NoFalseHeader p stream) :
    NoFalseHeader p (stream.take (p + 8)) := by
  intro q hq
  rw [List.drop_take, frameLen_take _ _ (by omega)]
  exact hn q hq

/-- Up to the eighth byte of the first candidate that passes, the bytes before it cost one discard each and the candidate
fares as if it came first. -/
theorem feedBytes_first_candidate {stream : List Byte} {p : Nat} {r : Rsm} {o : RsOut} (h : p + 8 ≤ stream.length)
    (hn : NoFalseHeader p stream)
    (hf : feedBytes ((stream.drop p).take 8) Rsm.reset = (r, List.replicate 7 RsOut.idle ++ [o])) :
    feedBytes (stream.take (p + 8)) Rsm.reset =
      (r, List.replicate 7 RsOut.idle ++ List.replicate p { ev := .resync, err := none, pkt := none } ++ [o]) := by
  have hp : (stream.take p).length = p := List.length_take_of_le (by omega)
  have hcut := hn.take
  rw [List.take_add] at hcut ⊢
  have hfeed := feedBytes_rejected_noise (by rw [List.length_take, List.length_drop]; omega) (by rwa [hp]) hf
  rwa [hp] at hfeed

/-- The same for the whole state, where the candidate's last byte gives no packet. -/
theorem giveChunk_first_candidate {stream : List Byte} {p : Nat} {s : State} {r : Rsm} {o : RsOut}
    (hs : s.rsm = Rsm.reset) (h : p + 8 ≤ stream.length) (hn : NoFalseHeader p stream) (ho : o.pkt = none)
    (hf : feedBytes ((stream.drop p).take 8) Rsm.reset = (r, List.replicate 7 RsOut.idle ++ [o])) :
    giveChunk (stream.take (p + 8)) s = { s with
      rsm := r
      out :=
        { enc := none, dec := none
          rs := List.replicate 7 RsOut.idle ++ List.replicate p { ev := .resync, err := none, pkt := none } ++ [o] } } := by
  have hnone : packetsOf
      (List.replicate 7 RsOut.idle ++ List.replicate p { ev := .resync, err := none, pkt := none } ++ [o]) = [] := by
    rw [packetsOf_append, packetsOf_append, packetsOf_replicate_idle, packetsOf_replicate_resync]
    simp [packetsOf, ho]
  rw [giveChunk_eq_giveRsm, hs, feedBytes_first_candidate h hn hf, giveRsm_of_no_packets hnone]

/-! ## The end of a body (42_reassembler.md R164, 70_reset_and_hazards.md R242) -/

/-- As many bytes as are missing end a body: the last gives DECODE's report of all that was held, and the reassembler is
initial again. -/
theorem feedBytes_rest_of_body {xs acc : List Byte} {n : BitVec 11} (hlt : acc.length < n.toNat)
    (hlen : acc.length + xs.length = n.toNat) :
    feedBytes xs { rsState := .readingBody, rsExpected := n, acc := acc } =
      (Rsm.reset, List.replicate (xs.length - 1) RsOut.idle ++ [reportFrame (acc ++ xs) RsOut.idle]) := by
  rcases List.eq_nil_or_concat xs with rfl | ⟨ys, c, rfl⟩
  · rw [List.length_nil] at hlen
    omega
  · rw [List.concat_eq_append] at hlen ⊢
    rw [List.length_append, List.length_singleton] at hlen
    have hbody := feedBytes_body ys acc (n := n) (by omega)
    have hlast := pushByte_extract (b := c) (r := { rsState := .readingBody, rsExpected := n, acc := acc ++ ys }) rfl
      (by rw [List.length_append]; omega)
    rw [feedBytes_append, hbody, feedBytes_cons, hlast]
    simp

/-- The report of an extracted frame carries DECODE's packet and nothing else (42_reassembler.md R166). -/
theorem packetsOf_reportFrame (frame : List Byte) :
    packetsOf [reportFrame frame RsOut.idle] = (decodeFrame frame).delivery.toList := by
  cases hd : decodeFrame frame with
  | packet d =>
    rw [reportFrame_packet hd]
    rfl
  | error e =>
    rw [reportFrame_error hd]
    rfl

/-! ## The statements -/

/-- Settles O45: the bytes before the candidate are rejected noise, and the candidate is checked as if it came first. -/
theorem firstValidCandidateIsTaken : Obligations.FirstValidCandidateIsTaken := by
  intro stream p s hs h hn
  have h8 : ((stream.drop p).take 8).length = 8 := by
    rw [List.length_take, List.length_drop]
    omega
  have hcases := feedBytes_eight_cases h8
  rw [frameLen_take (stream.drop p) 8 le_rfl] at hcases
  rw [exec_rsFeed]
  rcases hcases with ⟨hl, -⟩ | ⟨hl, hf⟩ | ⟨h9, -, hf⟩
  · exact ⟨by omega, by omega⟩
  · refine ⟨by omega, fun _ => ?_⟩
    rw [giveChunk_first_candidate hs h hn rfl hf, ← hs]
  · refine ⟨fun _ _ => ?_, by omega⟩
    rw [giveChunk_first_candidate hs h hn rfl hf]

/-- Settles O48: the bytes end the body, whatever they are, and only the last of them reports. -/
theorem tornFrameSwallowsWhatFollows : Obligations.TornFrameSwallowsWhatFollows := by
  intro s xs hs hr hxs
  obtain ⟨-, -, -, hlt, -⟩ := hs.reading hr
  have hfeed := feedBytes_rest_of_body (xs := xs) hlt (by omega)
  rw [← hr] at hfeed
  refine ⟨_, exec_rsFeed xs s, congrArg Prod.fst hfeed, ?_⟩
  rw [giveChunk_out, hfeed, packetsOf_append, packetsOf_replicate_idle, List.nil_append, packetsOf_reportFrame]
  cases decodeFrame (s.rsm.acc ++ xs) <;> rfl

end Sys2Proof.Machine
